-- ==== Sys2Proof/Word.lean ====
section
/-! DEFINITION. The word types of the block: command and response words (30_encoding.md R60, R61) and buffer bytes. -/

namespace Sys2Proof

/-- One byte of a buffer or of a configuration register. -/
abbrev Byte := BitVec 8

/-- A command word `C` or a response word `S`: 64 bits (30_encoding.md R60, R61). -/
abbrev Word := BitVec 64

end Sys2Proof
end

