-- ==== Sys2Proof/Syntax.lean ====
section
/-! DEFINITION. The 24 commands of spec/opcode_table.json, one constructor a row, with the operands of
30_encoding.md R62. A handle, a position, an index, a length or a selector is a number (its field's width is checked
in WellFormed.lean; log entry 14); data that is appended or stored is a bit vector of the operand's width. -/

namespace Sys2Proof

/-- One command with its operands (30_encoding.md R62). -/
inductive Instr where
  /-- `ADDBIT m, b` (R80) -/
  | addbit (m : Nat) (b : Bool)
  /-- `ADD8 m, v` (R81) -/
  | add8 (m : Nat) (v : BitVec 8)
  /-- `ADD16 m, v` (R82) -/
  | add16 (m : Nat) (v : BitVec 16)
  /-- `ADD32 m, v` (R83) -/
  | add32 (m : Nat) (v : BitVec 32)
  /-- `GETBIT m, pos` (R90) -/
  | getbit (m pos : Nat)
  /-- `GETCHUNK m, pos, len` (R91) -/
  | getchunk (m pos len : Nat)
  /-- `GET8 m, pos` (R92) -/
  | get8 (m pos : Nat)
  /-- `GET16 m, pos` (R93) -/
  | get16 (m pos : Nat)
  /-- `GET32 m, pos` (R94) -/
  | get32 (m pos : Nat)
  /-- `PREPTX m` (R100) -/
  | preptx (m : Nat)
  /-- `PREPRX m` (R101) -/
  | preprx (m : Nat)
  /-- `MINSIZE payloadLen` (R102) -/
  | minsize (payloadLen : Nat)
  /-- `RXPRE m` (R103) -/
  | rxpre (m : Nat)
  /-- `RXSEAL m` (R104) -/
  | rxseal (m : Nat)
  /-- `APPWR idx, byte` (R105) -/
  | appwr (idx : Nat) (byte : BitVec 8)
  /-- `APPHDR type, length_bits` (R106) -/
  | apphdr (type : BitVec 8) (lengthBits : Nat)
  /-- `RDCTX m, sel` (R107) -/
  | rdctx (m sel : Nat)
  /-- `ADDCORR m` (R130) -/
  | addcorr (m : Nat)
  /-- `CHKCORR m` (R131) -/
  | chkcorr (m : Nat)
  /-- `CHKLEN` (R132) -/
  | chklen
  /-- `PKTREG` (R150) -/
  | pktreg
  /-- `ECCREG` (R151) -/
  | eccreg
  /-- `SETCFG i, v` (R152) -/
  | setcfg (i : Nat) (v : BitVec 32)
  /-- `GETCFG i` (R153) -/
  | getcfg (i : Nat)
deriving DecidableEq, Repr

end Sys2Proof
end

