-- ==== Sys2Proof/Decode.lean ====
section
/-! DEFINITION. The command word (30_encoding.md R60 to R65): the decoder, total on every 64-bit word, and after it the
encoder, both written from R62's operand table and R63's opcode map. -/

namespace Sys2Proof

/-- Why a command word is no command (30_encoding.md R64). -/
inductive DecodeError where
  /-- `OPCODE` is none of the 24 of R63 -/
  | illegalOpcode (opcode : BitVec 8)
deriving DecidableEq, Repr

/-- `C[63:56]` (R60). -/
def opcodeField (w : Word) : BitVec 8 := w.extractLsb' 56 8

/-- `C[55:48]` (R60). -/
def msgField (w : Word) : BitVec 8 := w.extractLsb' 48 8

/-- `C[47:32]` (R60). -/
def posField (w : Word) : BitVec 16 := w.extractLsb' 32 16

/-- `C[31:0]` (R60). -/
def dataField (w : Word) : BitVec 32 := w.extractLsb' 0 32

/-- `POS[7:0]`, bits 39 to 32 of the word (R62). -/
def posLow (w : Word) : BitVec 8 := w.extractLsb' 32 8

/-- `DATA[7:0]` (R62). -/
def dataByte (w : Word) : BitVec 8 := w.extractLsb' 0 8

/-- `DATA[15:0]` (R62). -/
def dataHalf (w : Word) : BitVec 16 := w.extractLsb' 0 16

/-- `DATA[0]` (R62). -/
def dataBit (w : Word) : Bool := w.getLsbD 0

/-- The command that a word stands for. The opcode alone selects it (R63), every operand is the unsigned value of
the bits of R62, and every other bit is ignored (R65). -/
def decode (w : Word) : Except DecodeError Instr :=
  let m := (msgField w).toNat
  let pos := (posField w).toNat
  match opcodeField w with
  | 0x01#8 => .ok (.addbit m (dataBit w))
  | 0x02#8 => .ok (.add8 m (dataByte w))
  | 0x03#8 => .ok (.add16 m (dataHalf w))
  | 0x04#8 => .ok (.add32 m (dataField w))
  | 0x08#8 => .ok (.getbit m pos)
  | 0x09#8 => .ok (.getchunk m pos (dataByte w).toNat)
  | 0x0A#8 => .ok (.get8 m pos)
  | 0x0B#8 => .ok (.get16 m pos)
  | 0x0C#8 => .ok (.get32 m pos)
  | 0x10#8 => .ok (.preptx m)
  | 0x11#8 => .ok (.preprx m)
  | 0x12#8 => .ok (.minsize (dataHalf w).toNat)
  | 0x13#8 => .ok (.rxpre m)
  | 0x14#8 => .ok (.rxseal m)
  | 0x15#8 => .ok (.appwr pos (dataByte w))
  | 0x16#8 => .ok (.apphdr (posLow w) (dataHalf w).toNat)
  | 0x17#8 => .ok (.rdctx m (posLow w).toNat)
  | 0x20#8 => .ok (.addcorr m)
  | 0x21#8 => .ok (.chkcorr m)
  | 0x22#8 => .ok .chklen
  | 0x30#8 => .ok .pktreg
  | 0x31#8 => .ok .eccreg
  | 0x32#8 => .ok (.setcfg (posLow w).toNat (dataField w))
  | 0x33#8 => .ok (.getcfg (posLow w).toNat)
  | op => .error (.illegalOpcode op)

/-- The opcode of a command (R63). -/
def opcodeOf : Instr → BitVec 8
  | .addbit .. => 0x01#8
  | .add8 .. => 0x02#8
  | .add16 .. => 0x03#8
  | .add32 .. => 0x04#8
  | .getbit .. => 0x08#8
  | .getchunk .. => 0x09#8
  | .get8 .. => 0x0A#8
  | .get16 .. => 0x0B#8
  | .get32 .. => 0x0C#8
  | .preptx .. => 0x10#8
  | .preprx .. => 0x11#8
  | .minsize .. => 0x12#8
  | .rxpre .. => 0x13#8
  | .rxseal .. => 0x14#8
  | .appwr .. => 0x15#8
  | .apphdr .. => 0x16#8
  | .rdctx .. => 0x17#8
  | .addcorr .. => 0x20#8
  | .chkcorr .. => 0x21#8
  | .chklen => 0x22#8
  | .pktreg => 0x30#8
  | .eccreg => 0x31#8
  | .setcfg .. => 0x32#8
  | .getcfg .. => 0x33#8

/-- What the command's `MSG` field holds; 0 where the command has no handle (R62, R65). -/
def msgOf : Instr → Nat
  | .addbit m _ => m
  | .add8 m _ => m
  | .add16 m _ => m
  | .add32 m _ => m
  | .getbit m _ => m
  | .getchunk m _ _ => m
  | .get8 m _ => m
  | .get16 m _ => m
  | .get32 m _ => m
  | .preptx m => m
  | .preprx m => m
  | .minsize _ => 0
  | .rxpre m => m
  | .rxseal m => m
  | .appwr _ _ => 0
  | .apphdr _ _ => 0
  | .rdctx m _ => m
  | .addcorr m => m
  | .chkcorr m => m
  | .chklen => 0
  | .pktreg => 0
  | .eccreg => 0
  | .setcfg _ _ => 0
  | .getcfg _ => 0

/-- What the command's `POS` field holds; 0 where the command has no operand there (R62, R65). -/
def posOf : Instr → Nat
  | .addbit _ _ => 0
  | .add8 _ _ => 0
  | .add16 _ _ => 0
  | .add32 _ _ => 0
  | .getbit _ pos => pos
  | .getchunk _ pos _ => pos
  | .get8 _ pos => pos
  | .get16 _ pos => pos
  | .get32 _ pos => pos
  | .preptx _ => 0
  | .preprx _ => 0
  | .minsize _ => 0
  | .rxpre _ => 0
  | .rxseal _ => 0
  | .appwr idx _ => idx
  | .apphdr type _ => type.toNat
  | .rdctx _ sel => sel
  | .addcorr _ => 0
  | .chkcorr _ => 0
  | .chklen => 0
  | .pktreg => 0
  | .eccreg => 0
  | .setcfg i _ => i
  | .getcfg i => i

/-- What the command's `DATA` field holds; 0 where the command has no operand there (R62, R65). -/
def dataOf : Instr → BitVec 32
  | .addbit _ b => (BitVec.ofBool b).setWidth 32
  | .add8 _ v => v.setWidth 32
  | .add16 _ v => v.setWidth 32
  | .add32 _ v => v
  | .getbit _ _ => 0
  | .getchunk _ _ len => BitVec.ofNat 32 len
  | .get8 _ _ => 0
  | .get16 _ _ => 0
  | .get32 _ _ => 0
  | .preptx _ => 0
  | .preprx _ => 0
  | .minsize payloadLen => BitVec.ofNat 32 payloadLen
  | .rxpre _ => 0
  | .rxseal _ => 0
  | .appwr _ byte => byte.setWidth 32
  | .apphdr _ lengthBits => BitVec.ofNat 32 lengthBits
  | .rdctx _ _ => 0
  | .addcorr _ => 0
  | .chkcorr _ => 0
  | .chklen => 0
  | .pktreg => 0
  | .eccreg => 0
  | .setcfg _ v => v
  | .getcfg _ => 0

/-- The command word of a command, its ignored bits 0 (R60, R65). -/
def encode (i : Instr) : Word :=
  opcodeOf i ++ BitVec.ofNat 8 (msgOf i) ++ BitVec.ofNat 16 (posOf i) ++ dataOf i

/-- The instruction that `decode` reads from the `nbits` low bits `w` of a command word, every bit above them 0.
A command is one 64-bit word (R60), so its bit 0 is the table's bit 0. -/
def decodeTableWord (nbits w : Nat) : Option Instr :=
  match decode (BitVec.ofNat 64 (w % 2 ^ nbits)) with
  | .ok i => some i
  | .error _ => none

end Sys2Proof
end

