-- ==== Sys2Proof/Config.lean ====
section
/-! DEFINITION. What an implementation fixes (00_scope.md R5) and the free values of a failed PREPTX
(42_frame_ops.md R108). No command changes a parameter. -/

namespace Sys2Proof

/-- The six integrity-code kinds (10_state.md R15, 43_integrity_ops.md R120). -/
inductive Kind where
  | crc8
  | crc16
  | crc32
  | checksum8
  | checksum16
  | checksum32
deriving DecidableEq, Repr

/-- `CRC_TAIL_SHIFTS`: how many shift steps a CRC performs for a final partial byte (00_scope.md R5,
43_integrity_ops.md R133). -/
inductive TailShifts where
  /-- as many steps as there are remaining bits -/
  | bits
  /-- eight steps -/
  | byte
deriving DecidableEq, Repr

/-- The implementation parameters of 00_scope.md R5, but for `N_MSG`, which is the number of contexts that State
holds (log entry 4). The constraints are `Params.wf` in WellFormed.lean. -/
structure Params where
  /-- `CAP_BYTES`: bytes in every message buffer -/
  capBytes : Nat
  /-- `PREAMBLE[0 .. PREAMBLE_LEN-1]`, the bit sent first standing first -/
  preamble : List Bool
  /-- `EVAL_TYPE`: the content-type tag that means evaluation -/
  evalType : Byte
  /-- `MIN_SIZE_BYTES`: the smallest defined size -/
  minSizeBytes : Nat
  /-- `CRC_TAIL_SHIFTS` -/
  crcTailShifts : TailShifts
  /-- `ECC_RESET`, one of the six kinds -/
  eccReset : Kind
  /-- `MODEM_ID_MIN` -/
  modemIdMin : Byte
  /-- `MODEM_ID_MAX` -/
  modemIdMax : Byte
  /-- `MODEM_ID_RESET` -/
  modemIdReset : Byte
  /-- `STATIONARY_RESET` -/
  stationaryReset : Bool
deriving DecidableEq, Repr

/-- `CAP_BITS = 8 * CAP_BYTES` (00_scope.md R5). -/
def Params.capBits (p : Params) : Nat := 8 * p.capBytes

/-- The reference instantiation REF of 00_scope.md R6. DESIGN CHOICE (log entry 1), unsafe: example values, no
property of the firmware. Only `State.reset` uses it; every statement about all states is about all parameters. -/
def Params.ref : Params where
  capBytes := 32
  preamble := [true, false, true, false, false, true, false, true]
  evalType := 0
  minSizeBytes := 1
  crcTailShifts := .bits
  eccReset := .crc8
  modemIdMin := 0
  modemIdMax := 15
  modemIdReset := 1
  stationaryReset := false

/-! The free values: what the `n`-th failed PREPTX leaves in its context (42_frame_ops.md R108,
93_implementation_defined.md U1; log entry 5). Nothing is known of them; Ops.lean keeps them within the invariant
of 10_state.md R27, as the rule says. -/

/-- Free value, safe: byte `a` of the buffer after the `n`-th failed PREPTX is `drawByte n a`. -/
opaque Config.drawByte : Nat → Nat → Byte

/-- Free value, safe: what `bit_count` is drawn from. -/
opaque Config.drawBitCount : Nat → Nat

/-- Free value, safe: what `final_length` is drawn from. -/
opaque Config.drawFinalLength : Nat → Nat

/-- Free value, safe: the drawn `sender_id`. -/
opaque Config.drawSenderId : Nat → Byte

/-- Free value, safe: the drawn `stationary`. -/
opaque Config.drawStationary : Nat → Bool

/-- Free value, safe: the drawn `content_type`. -/
opaque Config.drawContentType : Nat → Byte

end Sys2Proof
end

