-- ==== Sys2Proof/Machine/State.lean ====
section
/-! DEFINITION. The architectural state (10_state.md), the causes of a failed command (60_exceptions.md R160), the ways
a step can stop, and the state after reset (10_state.md R31). -/

namespace Sys2Proof.Machine

/-- A byte store in canonical form: addresses strictly rising, no entry equal to what an unlisted address reads as
(`blankByte`, Ops.lean). One stands for each buffer of `CAP_BYTES` bytes (20_memory.md R40). -/
abbrev Memory := List Host.Cell

/-- Why a command failed (60_exceptions.md R160). -/
inductive Cause where
  /-- R161 -/
  | capacity
  /-- R162 -/
  | bounds
  /-- R163 -/
  | registration
  /-- R164 -/
  | validation
  /-- R165: the class exists and no command produces it (log entry 15) -/
  | sync
  /-- R166 -/
  | illegal
deriving DecidableEq, Repr

/-- The fields of a response word (30_encoding.md R61); Operands.lean lays them out. -/
structure Response where
  ok : Bool
  /-- `none` where `CAUSE` is 0 -/
  cause : Option Cause
  flag : Bool
  pos : BitVec 16
  data : BitVec 32
deriving DecidableEq, Repr

/-- The three configuration registers (10_state.md R14). -/
inductive CfgId where
  | eccMethod
  | modemId
  | stationary
deriving DecidableEq, Repr

/-- One configuration register with its two flags (10_state.md R14, R18, R19). -/
structure ConfigReg where
  /-- `cfg[i]` -/
  value : Byte
  /-- `registered[i]` -/
  registered : Bool
  /-- `modified[i]` -/
  modified : Bool
deriving DecidableEq, Repr

/-- The configuration block (10_state.md R14). -/
structure ConfigBlock where
  /-- register 0, `ECC_METHOD` (R15) -/
  eccMethod : ConfigReg
  /-- register 1, `MODEM_ID` (R16) -/
  modemId : ConfigReg
  /-- register 2, `STATIONARY` (R17) -/
  stationary : ConfigReg
deriving DecidableEq, Repr

/-- One message context, a BitMessage (10_state.md R20). -/
structure Ctx where
  /-- `buf`, `CAP_BYTES` bytes addressed bit by bit (R21) -/
  buf : Memory
  /-- `bit_count`, the write cursor (R22) -/
  bitCount : Nat
  /-- `final_length` (R23) -/
  finalLength : Nat
  /-- `preamble_received` (R24) -/
  preambleReceived : Bool
  /-- `fully_received` (R25) -/
  fullyReceived : Bool
  /-- `sender_id` (R26) -/
  senderId : Byte
  /-- `stationary` (R26) -/
  stationary : Bool
  /-- `content_type` (R26) -/
  contentType : Byte
deriving DecidableEq, Repr

/-- The application-message staging area (10_state.md R29). -/
structure App where
  /-- `app.data`, `CAP_BYTES` bytes -/
  data : Memory
  /-- `app.length_bits` -/
  lengthBits : Nat
  /-- `app.content_type` -/
  contentType : Byte
deriving DecidableEq, Repr

/-- The state of the block. `params`, `commands`, `responses` and `draws` are the model's own fields (log entries 1,
2 and 5); the rest is all the state that 10_state.md gives the block. -/
structure State where
  /-- the implementation parameters (00_scope.md R5): fixed, no step changes them -/
  params : Params
  /-- `cfg`, `registered`, `modified` (10_state.md R14 to R19) -/
  config : ConfigBlock
  /-- `ctx[0] .. ctx[N_MSG-1]` (R20); `N_MSG` is the length of this list (log entry 4) -/
  ctxs : List Ctx
  /-- the staging area (R29) -/
  app : App
  /-- command words offered by the host and not run yet, the next one first -/
  commands : List Word
  /-- response words produced so far, the oldest first (70_reset_and_hazards.md R193) -/
  responses : List Word
  /-- how many free contexts have been drawn (42_frame_ops.md R108) -/
  draws : Nat
deriving DecidableEq, Repr

/-- Why the machine stops. The spec stops on nothing (60_exceptions.md R160, R170); both faults stand only in states
that no run from reset reaches. -/
inductive Fault where
  /-- Raised by the extraction commands and CHKCORR when the span they may read (it lies below `bit_count`) runs past
  the buffer, which needs `bit_count > CAP_BITS` (10_state.md R27 rules it out). Safe: the model stops where the spec
  has no state (log entry 7). -/
  | outsideBuffer
  /-- Raised by ADDCORR, CHKCORR, CHKLEN and framed PREPTX when `cfg[ECC_METHOD]` is above 5, which 10_state.md R14
  and 43_integrity_ops.md R120 rule out. Safe: the model stops where the spec has no state (log entry 8). -/
  | unknownMethod
deriving DecidableEq, Repr

/-- Why the model has no meaning for an instruction. -/
inductive Refusal where
  /-- Raised by an arm of `exec` that has no meaning yet, and by nothing else. Safe. No arm raises it now. -/
  | notModelled (mnemonic : String)
deriving DecidableEq, Repr

/-- The number that `ECC_METHOD` holds for a kind (10_state.md R15). -/
def kindCode : Kind → Byte
  | .crc8 => 0
  | .crc16 => 1
  | .crc32 => 2
  | .checksum8 => 3
  | .checksum16 => 4
  | .checksum32 => 5

/-- A configuration register right after reset: its parameter's value, unregistered, unmodified (10_state.md R31). -/
def ConfigReg.atReset (v : Byte) : ConfigReg := { value := v, registered := false, modified := false }

/-- A message context right after reset (10_state.md R31). -/
def Ctx.atReset : Ctx where
  buf := []
  bitCount := 0
  finalLength := 0
  preambleReceived := false
  fullyReceived := false
  senderId := 0
  stationary := false
  contentType := 0

/-- The reset state of a block with parameters `p` and `nMsg` contexts (10_state.md R31, 70_reset_and_hazards.md
R182), with no command offered yet. -/
def State.resetOf (p : Params) (nMsg : Nat) : State where
  params := p
  config :=
    { eccMethod := .atReset (kindCode p.eccReset)
      modemId := .atReset p.modemIdReset
      stationary := .atReset (if p.stationaryReset then 1 else 0) }
  ctxs := List.replicate nMsg Ctx.atReset
  app := { data := [], lengthBits := 0, contentType := 0 }
  commands := []
  responses := []
  draws := 0

/-- The machine right after reset, with the parameters and the two contexts of the reference instantiation
(00_scope.md R6). DESIGN CHOICE (log entry 1), unsafe: the spec leaves these values open. -/
def State.reset : State := State.resetOf Params.ref 2

end Sys2Proof.Machine
end

