-- ==== Sys2Proof/Machine/Ops.lean ====
section
/-! DEFINITION. The named operations over the state: the byte store, bit access (20_memory.md R42 to R45), contexts and
configuration registers, the reset and the appends of a context, the answer of a command, and the failure of a command
(60_exceptions.md R160, R170), which is all the block has in place of an exception. -/

namespace Sys2Proof.Machine

/-! ## Bytes -/

/-- What a byte that no entry lists reads as: every buffer byte is 0x00 at reset and after a context reset
(10_state.md R30, R31; log entry 6). -/
def blankByte : Byte := 0x00

/-- The canonical form of a byte store: addresses strictly rising, no blank entry. -/
abbrev Memory.wf (mem : Memory) : Prop :=
  mem.Pairwise (fun x y => x.1 < y.1) ∧ ∀ c ∈ mem, c.2 ≠ blankByte

/-- Every listed address lies below `n`. -/
abbrev Memory.below (mem : Memory) (n : Nat) : Prop := ∀ c ∈ mem, c.1 < n

/-- The byte at an address. -/
def Memory.read : Memory → Nat → Byte
  | [], _ => blankByte
  | (a, v) :: rest, x => if x = a then v else Memory.read rest x

/-- An entry in front of a store, left out where it is blank. -/
def consCell (a : Nat) (v : Byte) (rest : Memory) : Memory :=
  if v = blankByte then rest else (a, v) :: rest

/-- The store with the byte at `x` replaced by `v`, in canonical form. -/
def Memory.write : Memory → Nat → Byte → Memory
  | [], x, v => consCell x v []
  | (a, w) :: rest, x, v =>
    if x < a then consCell x v ((a, w) :: rest)
    else if x = a then consCell x v rest
    else (a, w) :: Memory.write rest x v

/-- The store whose byte `a` is `f a` for `start ≤ a < start + n`, and blank elsewhere. -/
def Memory.tabulate (f : Nat → Byte) : Nat → Nat → Memory
  | _, 0 => []
  | start, n + 1 => consCell start (f start) (Memory.tabulate f (start + 1) n)

/-! ## Bits -/

/-- `BitRead` (20_memory.md R42): position `p` is in byte `p div 8` at weight `2^(7 - p mod 8)`. -/
def bitRead (mem : Memory) (p : Nat) : Bool := (mem.read (p / 8)).getLsbD (7 - p % 8)

/-- The byte mask of a bit position, `0x80 >> (p mod 8)` (20_memory.md R43). -/
def bitMask (p : Nat) : Byte := 0x80#8 >>> (p % 8)

/-- `BitWrite` (20_memory.md R43): sets or clears one bit and leaves the other seven. -/
def bitWrite (mem : Memory) (p : Nat) (b : Bool) : Memory :=
  mem.write (p / 8) ((mem.read (p / 8) &&& ~~~ bitMask p) ||| (if b then bitMask p else 0))

/-- `MemRead` (20_memory.md R44): `n` bits from position `p`, the first one most significant. -/
def memRead (mem : Memory) (p : Nat) : Nat → Nat
  | 0 => 0
  | n + 1 => 2 * memRead mem p n + (bitRead mem (p + n)).toNat

/-- The bits of an `n`-bit value, the most significant one first (00_scope.md R7). -/
def bitsOf (n v : Nat) : List Bool := (List.range n).map fun k => v.testBit (n - 1 - k)

/-- A run of `BitWrite`s at `p`, `p + 1`, … -/
def putBits (mem : Memory) (p : Nat) : List Bool → Memory
  | [] => mem
  | b :: bs => putBits (bitWrite mem p b) (p + 1) bs

/-- `MemWrite` (20_memory.md R45): the `n` bits of `v` at position `p`, the most significant one first. -/
def memWrite (mem : Memory) (p n v : Nat) : Memory := putBits mem p (bitsOf n v)

/-! ## Contexts, registers, staging area -/

/-- The number of contexts the block holds (00_scope.md R5; log entry 4). -/
def State.nMsg (s : State) : Nat := s.ctxs.length

/-- The state with context `m` replaced. -/
def State.setCtx (s : State) (m : Nat) (c : Ctx) : State := { s with ctxs := s.ctxs.set m c }

/-- The configuration register of an identifier. -/
def State.cfg (s : State) : CfgId → ConfigReg
  | .eccMethod => s.config.eccMethod
  | .modemId => s.config.modemId
  | .stationary => s.config.stationary

/-- The state with one configuration register replaced. -/
def State.setCfg (s : State) (id : CfgId) (r : ConfigReg) : State :=
  { s with config :=
      match id with
      | .eccMethod => { s.config with eccMethod := r }
      | .modemId => { s.config with modemId := r }
      | .stationary => { s.config with stationary := r } }

/-- The state with the staging area replaced. -/
def State.setApp (s : State) (a : App) : State := { s with app := a }

/-- The state after one more free context has been drawn (log entry 5). -/
def State.bumpDraws (s : State) : State := { s with draws := s.draws + 1 }

/-- `ResetCtx` (42_frame_ops.md, helper definitions): every field of the context, whatever it held, at its reset value
(10_state.md R31). -/
def resetCtx : Ctx where
  buf := []
  bitCount := 0
  finalLength := 0
  preambleReceived := false
  fullyReceived := false
  senderId := 0
  stationary := false
  contentType := 0

/-- The context with `bs` appended at the cursor, or `none` where they do not all fit (40_append_ops.md R80 to R83).
For several bits this is the repeated ADDBIT of the source made all or nothing. -/
def Ctx.append (capBits : Nat) (c : Ctx) (bs : List Bool) : Option Ctx :=
  if c.bitCount + bs.length > capBits then none
  else some { c with buf := putBits c.buf c.bitCount bs, bitCount := c.bitCount + bs.length }

/-- `AppBit(0 .. L-1)` (42_frame_ops.md, helper definitions): the declared payload bits of the staging area. -/
def App.payload (a : App) : List Bool := (List.range a.lengthBits).map (bitRead a.data)

/-- The context after a PREPTX that failed after its reset step (42_frame_ops.md R108, case b): both flags 0, every
other field a free value within the invariant of 10_state.md R27 (log entry 5). -/
def drawnCtx (p : Params) (n : Nat) : Ctx :=
  let bitCount := Config.drawBitCount n % (p.capBits + 1)
  { buf := Memory.tabulate (Config.drawByte n) 0 p.capBytes
    bitCount := bitCount
    finalLength := Config.drawFinalLength n % (bitCount + 1)
    preambleReceived := false
    fullyReceived := false
    senderId := Config.drawSenderId n
    stationary := Config.drawStationary n
    contentType := Config.drawContentType n }

/-! ## Responses -/

/-- The three `CAUSE` bits (60_exceptions.md R160). -/
def causeCode : Option Cause → BitVec 3
  | none => 0
  | some .capacity => 1
  | some .bounds => 2
  | some .registration => 3
  | some .validation => 4
  | some .sync => 5
  | some .illegal => 6

/-- The response word `S` (30_encoding.md R61). -/
def Response.word (r : Response) : Word :=
  BitVec.ofBool r.ok ++ causeCode r.cause ++ 0#11 ++ BitVec.ofBool r.flag ++ r.pos ++ r.data

/-- `return ()` (00_scope.md R8): success with every result field 0. -/
def Response.done : Response := { ok := true, cause := none, flag := false, pos := 0, data := 0 }

/-- The response of a failed command (30_encoding.md R61): every result field 0. -/
def Response.failed (cause : Cause) : Response :=
  { ok := false, cause := some cause, flag := false, pos := 0, data := 0 }

/-- A command's response is produced: nothing else of the state changes. -/
def State.respond (s : State) (r : Response) : State := { s with responses := s.responses ++ [r.word] }

/-- A command ends with this state and this response. -/
def answer (s : State) (r : Response) : Host.Outcome State Fault Refusal := .next (s.respond r)

/-- `raise Fail(cause)` (00_scope.md R8, 60_exceptions.md R160, R170): the block's only abnormal end. Nothing is saved,
no mode changes, control goes nowhere, and the state given is left as it is but for the response. There is no return
from it (R171). -/
def failWith (s : State) (cause : Cause) : Host.Outcome State Fault Refusal := answer s (.failed cause)

/-- A command on context `m`: ILLEGAL where `m >= N_MSG` (30_encoding.md R64, 60_exceptions.md R166), before any other
check (R169). -/
def withCtx (m : Nat) (s : State) (f : Ctx → Host.Outcome State Fault Refusal) : Host.Outcome State Fault Refusal :=
  match s.ctxs[m]? with
  | none => failWith s .illegal
  | some c => f c

end Sys2Proof.Machine
end

