-- ==== Sys2Proof/Machine/Operands.lean ====
section
/-! DEFINITION. Operand checks shared by the commands: the bound of an extraction (41_extract_ops.md R95), the
configuration register numbers and their limits (10_state.md R14), the integrity kind in force (R15). -/

namespace Sys2Proof.Machine

/-- The response of a failed extraction: `POS` is the position operand unchanged (30_encoding.md R62). -/
def extractFailed (cause : Cause) (pos : Nat) : Response :=
  { Response.failed cause with pos := BitVec.ofNat 16 pos }

/-- The bound check of 41_extract_ops.md R95, in unbounded naturals: `none` where an extraction of `n` bits at `pos` is
admitted, else the cause. -/
def extractBound (capBits bitCount pos n : Nat) : Option Cause :=
  if pos + n ≤ bitCount then none
  else if pos + n > capBits then some .capacity
  else some .bounds

/-- An extraction of `n` bits at `pos` (41_extract_ops.md R95): where it is admitted, `k` of the value read, which lies
within the buffer in every state a run reaches (log entry 7); else the failure. -/
def extract (c : Ctx) (s : State) (pos n : Nat) (k : Nat → Response) : Host.Outcome State Fault Refusal :=
  match extractBound s.params.capBits c.bitCount pos n with
  | some cause => answer s (extractFailed cause pos)
  | none => if pos + n > s.params.capBits then .fault .outsideBuffer else answer s (k (memRead c.buf pos n))

/-- A successful extraction: the data right-justified, the position given (30_encoding.md R62). -/
def extracted (pos data : Nat) : Response :=
  { Response.done with pos := BitVec.ofNat 16 pos, data := BitVec.ofNat 32 data }

/-- A success whose only result is `DATA` (30_encoding.md R62). -/
def withData (data : Nat) : Response := { Response.done with data := BitVec.ofNat 32 data }

/-- The configuration register numbers; 3 and above do not exist (10_state.md R14). -/
def cfgIdOf : Nat → Option CfgId
  | 0 => some .eccMethod
  | 1 => some .modemId
  | 2 => some .stationary
  | _ => none

/-- `min[i]` (10_state.md R14). -/
def cfgMin (p : Params) : CfgId → Nat
  | .eccMethod => 0
  | .modemId => p.modemIdMin.toNat
  | .stationary => 0

/-- `max[i]` (10_state.md R14). -/
def cfgMax (p : Params) : CfgId → Nat
  | .eccMethod => 5
  | .modemId => p.modemIdMax.toNat
  | .stationary => 1

/-- The kind that a value of `ECC_METHOD` selects; values above 5 select none and no register holds one
(10_state.md R14, R15). -/
def kindOf (v : Byte) : Option Kind :=
  match v with
  | 0#8 => some .crc8
  | 1#8 => some .crc16
  | 2#8 => some .crc32
  | 3#8 => some .checksum8
  | 4#8 => some .checksum16
  | 5#8 => some .checksum32
  | _ => none

/-- The trailer width `W(k)` in bits (10_state.md R15, 43_integrity_ops.md R120). -/
def trailerWidth : Kind → Nat
  | .crc8 => 8
  | .crc16 => 16
  | .crc32 => 32
  | .checksum8 => 8
  | .checksum16 => 16
  | .checksum32 => 32

/-- The one read of `ECC_METHOD` that an integrity command makes, at its start (43_integrity_ops.md R120):
REGISTRATION where it is unregistered, else `k` of the kind. -/
def withKind (s : State) (k : Kind → Host.Outcome State Fault Refusal) : Host.Outcome State Fault Refusal :=
  if s.config.eccMethod.registered then
    match kindOf s.config.eccMethod.value with
    | some kind => k kind
    | none => .fault .unknownMethod
  else failWith s .registration

end Sys2Proof.Machine
end

