-- ==== Sys2Proof/Machine/Append.lean ====
section
/-! DEFINITION. The append commands ADDBIT, ADD8, ADD16, ADD32 (40_append_ops.md). -/

namespace Sys2Proof.Machine

/-- An append command: CAPACITY where the bits do not all fit, and nothing changes; else they are written at the cursor,
which moves past them. No other field of the context changes. -/
def appendCommand (m : Nat) (bs : List Bool) (s : State) : Host.Outcome State Fault Refusal :=
  withCtx m s fun c =>
    match c.append s.params.capBits bs with
    | none => failWith s .capacity
    | some c' => answer (s.setCtx m c') .done

/-- `ADDBIT m, b` (R80). -/
def execAddbit (m : Nat) (b : Bool) (s : State) : Host.Outcome State Fault Refusal :=
  appendCommand m [b] s

/-- `ADD8 m, v` (R81). -/
def execAdd8 (m : Nat) (v : BitVec 8) (s : State) : Host.Outcome State Fault Refusal :=
  appendCommand m (bitsOf 8 v.toNat) s

/-- `ADD16 m, v` (R82). -/
def execAdd16 (m : Nat) (v : BitVec 16) (s : State) : Host.Outcome State Fault Refusal :=
  appendCommand m (bitsOf 16 v.toNat) s

/-- `ADD32 m, v` (R83). -/
def execAdd32 (m : Nat) (v : BitVec 32) (s : State) : Host.Outcome State Fault Refusal :=
  appendCommand m (bitsOf 32 v.toNat) s

end Sys2Proof.Machine
end

