-- ==== Sys2Proof/Machine/Configuration.lean ====
section
/-! DEFINITION. The configuration commands PKTREG, ECCREG, SETCFG, GETCFG (44_config_ops.md). -/

namespace Sys2Proof.Machine

/-- The state with one configuration register registered; its value and its modified flag stay (R150, R151). -/
def register (s : State) (id : CfgId) : State := s.setCfg id { s.cfg id with registered := true }

/-- `PKTREG` (R150). Where STATIONARY alone is registered, which no run reaches, the rule sets `registered[MODEM_ID]`
before its second check, but a failed command leaves the state as it was (60_exceptions.md R170), so nothing changes
(log entry 12). -/
def execPktreg (s : State) : Host.Outcome State Fault Refusal :=
  if (s.cfg .modemId).registered || (s.cfg .stationary).registered then failWith s .registration
  else answer (register (register s .modemId) .stationary) .done

/-- `ECCREG` (R151). -/
def execEccreg (s : State) : Host.Outcome State Fault Refusal :=
  if (s.cfg .eccMethod).registered then failWith s .registration
  else answer (register s .eccMethod) .done

/-- The identifier of a register number that exists and is registered (R152, R153, R154). -/
def registeredId (s : State) (i : Nat) : Option CfgId :=
  match cfgIdOf i with
  | none => none
  | some id => if (s.cfg id).registered then some id else none

/-- The value lies within the register's inclusive limits, compared as unsigned 32-bit values (R152). -/
def withinLimits (p : Params) (id : CfgId) (v : BitVec 32) : Bool :=
  decide (cfgMin p id ≤ v.toNat) && decide (v.toNat ≤ cfgMax p id)

/-- `SETCFG i, v` (R152): REGISTRATION, then VALIDATION; writing the value held is a success that changes nothing. -/
def execSetcfg (i : Nat) (v : BitVec 32) (s : State) : Host.Outcome State Fault Refusal :=
  match registeredId s i with
  | none => failWith s .registration
  | some id =>
    if !withinLimits s.params id v then failWith s .validation
    else if v = (s.cfg id).value.setWidth 32 then answer s .done
    else answer (s.setCfg id { s.cfg id with value := v.setWidth 8, modified := true }) .done

/-- `GETCFG i` (R153). -/
def execGetcfg (i : Nat) (s : State) : Host.Outcome State Fault Refusal :=
  match registeredId s i with
  | none => failWith s .registration
  | some id => answer s (withData (s.cfg id).value.toNat)

end Sys2Proof.Machine
end

