-- ==== Sys2Proof/Machine/Extract.lean ====
section
/-! DEFINITION. The extract commands GETBIT, GETCHUNK, GET8, GET16, GET32 (41_extract_ops.md). None changes any state
but for the response. -/

namespace Sys2Proof.Machine

/-- `GETBIT m, pos` (R90): the position is not advanced. -/
def execGetbit (m pos : Nat) (s : State) : Host.Outcome State Fault Refusal :=
  withCtx m s fun c => extract c s pos 1 fun data => extracted pos data

/-- `GETCHUNK m, pos, len` (R91): BOUNDS where `len > 8`, before the bound check (60_exceptions.md R169). -/
def execGetchunk (m pos len : Nat) (s : State) : Host.Outcome State Fault Refusal :=
  withCtx m s fun c =>
    if len > 8 then answer s (extractFailed .bounds pos)
    else extract c s pos len fun data => extracted (pos + len) data

/-- `GET8 m, pos` (R92). -/
def execGet8 (m pos : Nat) (s : State) : Host.Outcome State Fault Refusal :=
  withCtx m s fun c => extract c s pos 8 fun data => extracted (pos + 8) data

/-- `GET16 m, pos` (R93). -/
def execGet16 (m pos : Nat) (s : State) : Host.Outcome State Fault Refusal :=
  withCtx m s fun c => extract c s pos 16 fun data => extracted (pos + 16) data

/-- `GET32 m, pos` (R94). -/
def execGet32 (m pos : Nat) (s : State) : Host.Outcome State Fault Refusal :=
  withCtx m s fun c => extract c s pos 32 fun data => extracted (pos + 32) data

end Sys2Proof.Machine
end

