-- ==== Sys2Proof/Machine/Codes.lean ====
section
/-! DEFINITION. The six integrity codes (43_integrity_ops.md R121 to R129, R133). -/

namespace Sys2Proof.Machine

/-- The full bytes `buf[0 .. n div 8 - 1]` of the covered sequence (R121). -/
def fullBytes (buf : Memory) (n : Nat) : List Byte := (List.range (n / 8)).map buf.read

/-- The tail byte of the covered sequence: the partial byte masked to its leading `n mod 8` bits (R121). Used only where
`n mod 8 > 0`. -/
def tailByte (buf : Memory) (n : Nat) : Byte := buf.read (n / 8) &&& (0xFF#8 <<< (8 - n % 8))

/-- The bytes a checksum sums: the full bytes and, where bits are left over, the tail byte (R121). -/
def coveredBytes (buf : Memory) (n : Nat) : List Byte :=
  fullBytes buf n ++ (if n % 8 = 0 then [] else [tailByte buf n])

/-- `Step(c)` (43_integrity_ops.md section 3). -/
def crcStep {width : Nat} (poly c : BitVec width) : BitVec width :=
  if c.msb then (c <<< 1) ^^^ poly else c <<< 1

/-- `Step` done `n` times. -/
def crcSteps {width : Nat} (poly : BitVec width) : Nat → BitVec width → BitVec width
  | 0, c => c
  | n + 1, c => crcSteps poly n (crcStep poly c)

/-- `Feed(c, b, s)` (43_integrity_ops.md section 3): the byte goes into the high byte of the register, then `s`
steps. -/
def crcFeed {width : Nat} (poly c : BitVec width) (b : Byte) (shifts : Nat) : BitVec width :=
  crcSteps poly shifts (c ^^^ (b.setWidth width <<< (width - 8)))

/-- `TailShifts(r)` (R133). -/
def tailShiftCount : TailShifts → Nat → Nat
  | .bits, r => r
  | .byte, _ => 8

/-- The register of a CRC after the covered bits: the full bytes with eight steps each, then the tail byte. -/
def crcRegister {width : Nat} (poly init : BitVec width) (tail : TailShifts) (buf : Memory) (n : Nat) : BitVec width :=
  let c := (fullBytes buf n).foldl (fun c b => crcFeed poly c b 8) init
  if n % 8 = 0 then c else crcFeed poly c (tailByte buf n) (tailShiftCount tail (n % 8))

/-- CRC-8 (R123). -/
def codeCrc8 (tail : TailShifts) (buf : Memory) (n : Nat) : BitVec 8 :=
  crcRegister 0x07#8 0x00#8 tail buf n

/-- CRC-16 (R124). -/
def codeCrc16 (tail : TailShifts) (buf : Memory) (n : Nat) : BitVec 16 :=
  crcRegister 0x1021#16 0xFFFF#16 tail buf n

/-- CRC-32 (R125): the final register complemented. -/
def codeCrc32 (tail : TailShifts) (buf : Memory) (n : Nat) : BitVec 32 :=
  ~~~ crcRegister 0x04C11DB7#32 0xFFFFFFFF#32 tail buf n

/-- Group `j` of `g` bytes, big-endian, missing bytes 0 (43_integrity_ops.md section 4). -/
def checksumGroup (g : Nat) (bytes : List Byte) (j : Nat) : Nat :=
  ((List.range g).map fun i => (bytes.getD (j * g + i) 0).toNat <<< (8 * (g - 1 - i))).sum

/-- The sum of all groups modulo `2^(8g)` (43_integrity_ops.md section 4). -/
def checksum (g : Nat) (bytes : List Byte) : Nat :=
  ((List.range ((bytes.length + g - 1) / g)).map (checksumGroup g bytes)).sum % 2 ^ (8 * g)

/-- Checksum-8 (R126). -/
def codeChecksum8 (buf : Memory) (n : Nat) : Nat := checksum 1 (coveredBytes buf n)

/-- Checksum-16 (R127). -/
def codeChecksum16 (buf : Memory) (n : Nat) : Nat := checksum 2 (coveredBytes buf n)

/-- Checksum-32 (R128). -/
def codeChecksum32 (buf : Memory) (n : Nat) : Nat := checksum 4 (coveredBytes buf n)

/-- `Code(k, buf, n)` as an unsigned value of `W(k)` bits (R129). -/
def code (kind : Kind) (tail : TailShifts) (buf : Memory) (n : Nat) : Nat :=
  match kind with
  | .crc8 => (codeCrc8 tail buf n).toNat
  | .crc16 => (codeCrc16 tail buf n).toNat
  | .crc32 => (codeCrc32 tail buf n).toNat
  | .checksum8 => codeChecksum8 buf n
  | .checksum16 => codeChecksum16 buf n
  | .checksum32 => codeChecksum32 buf n

end Sys2Proof.Machine
end

