-- ==== Sys2Proof/Machine/Flags.lean ====
section
/-! DEFINITION. The flags a command computes (10_state.md R13): the mismatch flag with its polarity and the FLAGS view
of a context. The block has no arithmetic condition codes. -/

namespace Sys2Proof.Machine

/-- The kinds whose mismatch flag is inverted: CRC-8 and CRC-32 (43_integrity_ops.md R131, 90_conflicts.md C6). -/
def invertedPolarity : Kind → Bool
  | .crc8 => true
  | .crc16 => false
  | .crc32 => true
  | .checksum8 => false
  | .checksum16 => false
  | .checksum32 => false

/-- `mismatch` (43_integrity_ops.md R131): `computed = received` for the inverted kinds, its negation for the others.
The source's defect, to be preserved exactly. -/
def mismatchFlag (kind : Kind) (computed received : Nat) : Bool :=
  if invertedPolarity kind then computed == received else computed != received

/-- The FLAGS field of RDCTX: bit 0 `preamble_received`, bit 1 `fully_received` (42_frame_ops.md R107). -/
def flagsView (c : Ctx) : Nat := c.preambleReceived.toNat + 2 * c.fullyReceived.toNat

end Sys2Proof.Machine
end

