-- ==== Sys2Proof/Machine/Integrity.lean ====
section
/-! DEFINITION. The integrity commands ADDCORR, CHKCORR, CHKLEN (43_integrity_ops.md section 5). -/

namespace Sys2Proof.Machine

/-- The context with the code of its bits so far appended and `final_length` increased by the code's width, or `none`
where the trailer does not fit (R130). -/
def addTrailer (p : Params) (kind : Kind) (c : Ctx) : Option Ctx :=
  (c.append p.capBits (bitsOf (trailerWidth kind) (code kind p.crcTailShifts c.buf c.bitCount))).map fun c' =>
    { c' with finalLength := c.finalLength + trailerWidth kind }

/-- `ADDCORR m` (R130). -/
def execAddcorr (m : Nat) (s : State) : Host.Outcome State Fault Refusal :=
  withCtx m s fun c => withKind s fun kind =>
    match addTrailer s.params kind c with
    | none => failWith s .capacity
    | some c' => answer (s.setCtx m c') .done

/-- The flag of `CHKCORR` (R131): the code of the bits before the trailer against the trailer. -/
def checkFlag (p : Params) (kind : Kind) (c : Ctx) : Bool :=
  let n := c.finalLength - trailerWidth kind
  mismatchFlag kind (code kind p.crcTailShifts c.buf n) (memRead c.buf n (trailerWidth kind))

/-- `CHKCORR m` (R131): BOUNDS where `final_length` leaves no room for a trailer or, in a state that does not carry the
invariant of 10_state.md R27, lies above `bit_count`. -/
def execChkcorr (m : Nat) (s : State) : Host.Outcome State Fault Refusal :=
  withCtx m s fun c => withKind s fun kind =>
    if c.finalLength < trailerWidth kind ∨ c.finalLength > c.bitCount then failWith s .bounds
    else if c.finalLength > s.params.capBits then .fault .outsideBuffer
    else answer s { Response.done with flag := checkFlag s.params kind c }

/-- `CHKLEN` (R132). -/
def execChklen (s : State) : Host.Outcome State Fault Refusal :=
  withKind s fun kind => answer s (withData (trailerWidth kind))

end Sys2Proof.Machine
end

