-- ==== Sys2Proof/Machine/Frame.lean ====
section
/-! DEFINITION. The frame commands PREPTX, PREPRX, MINSIZE, RXPRE, RXSEAL, APPWR, APPHDR, RDCTX (42_frame_ops.md). -/

namespace Sys2Proof.Machine

/-- How far the frame of a PREPTX came. -/
inductive FrameResult where
  /-- the finished context -/
  | built (c : Ctx)
  /-- a failure after the reset step (42_frame_ops.md R108, case b) -/
  | failed (cause : Cause)
  /-- `ECC_METHOD` selects no kind: in no state a run reaches (log entry 8) -/
  | stuck
deriving DecidableEq, Repr

/-- The content is evaluation content: no preamble, no trailer (30_encoding.md R73). -/
def isEvaluation (s : State) : Bool := s.app.contentType == s.params.evalType

/-- Step (1) of PREPTX: the context reset, with the snapshot of the metadata (42_frame_ops.md R100). -/
def snapshotCtx (s : State) : Ctx :=
  { resetCtx with
    senderId := s.config.modemId.value
    stationary := s.config.stationary.value.getLsbD 0
    contentType := s.app.contentType }

/-- Steps (2) and (3) of PREPTX: the preamble unless the content is evaluation, then the payload, then `final_length`
set to `bit_count` (42_frame_ops.md R100); `none` where an append does not fit. The preamble and the payload go in
as one append: each bit's ADDBIT succeeds exactly where the whole fits, and a failure anywhere leaves the same free
context (log entry 11). -/
def framePayload (s : State) : Option Ctx :=
  ((snapshotCtx s).append s.params.capBits
    ((if isEvaluation s then [] else s.params.preamble) ++ s.app.payload)).map fun c =>
      { c with finalLength := c.bitCount }

/-- Steps (4) and (5) of PREPTX: the trailer unless the content is evaluation, then the seal (42_frame_ops.md R100). -/
def frameTrailer (s : State) (c : Ctx) : FrameResult :=
  if isEvaluation s then .built { c with fullyReceived := true }
  else if s.config.eccMethod.registered then
    match kindOf s.config.eccMethod.value with
    | none => .stuck
    | some kind =>
      match addTrailer s.params kind c with
      | none => .failed .capacity
      | some c' => .built { c' with fullyReceived := true }
  else .failed .registration

/-- Steps (1) to (5) of PREPTX. -/
def buildFrame (s : State) : FrameResult :=
  match framePayload s with
  | none => .failed .capacity
  | some c => frameTrailer s c

/-- `PREPTX m` (R100): the parameter reads come first and their failure changes nothing (R108, case a); a later failure
leaves a free context with both flags 0 (R108, case b). -/
def execPreptx (m : Nat) (s : State) : Host.Outcome State Fault Refusal :=
  withCtx m s fun _ =>
    if s.config.modemId.registered && s.config.stationary.registered then
      match buildFrame s with
      | .built c => answer (s.setCtx m c) .done
      | .failed cause => failWith (s.setCtx m (drawnCtx s.params s.draws)).bumpDraws cause
      | .stuck => .fault .unknownMethod
    else failWith s .registration

/-- `PREPRX m` (R101). -/
def execPreprx (m : Nat) (s : State) : Host.Outcome State Fault Refusal :=
  withCtx m s fun _ => answer (s.setCtx m resetCtx) .done

/-- The least power of two from `2^e` on that is at least `n`, looking at most `fuel` doublings far. -/
def leastPowerFrom (n : Nat) : Nat → Nat → Nat
  | 0, e => 2 ^ e
  | fuel + 1, e => if n ≤ 2 ^ e then 2 ^ e else leastPowerFrom n fuel (e + 1)

/-- The least power of two that is at least `n` (`2^n` always is). -/
def leastPower (n : Nat) : Nat := leastPowerFrom n n 0

/-- `MINSIZE payloadLen` (R102). -/
def execMinsize (payloadLen : Nat) (s : State) : Host.Outcome State Fault Refusal :=
  answer s (withData (leastPower (max payloadLen s.params.minSizeBytes)))

/-- `RXPRE m` (R103). -/
def execRxpre (m : Nat) (s : State) : Host.Outcome State Fault Refusal :=
  withCtx m s fun c => answer (s.setCtx m { c with preambleReceived := true }) .done

/-- `RXSEAL m` (R104). -/
def execRxseal (m : Nat) (s : State) : Host.Outcome State Fault Refusal :=
  withCtx m s fun c => answer (s.setCtx m { c with finalLength := c.bitCount, fullyReceived := true }) .done

/-- `APPWR idx, byte` (R105). -/
def execAppwr (idx : Nat) (byte : BitVec 8) (s : State) : Host.Outcome State Fault Refusal :=
  if idx ≥ s.params.capBytes then failWith s .capacity
  else answer (s.setApp { s.app with data := s.app.data.write idx byte }) .done

/-- `APPHDR type, length_bits` (R106). -/
def execApphdr (type : BitVec 8) (lengthBits : Nat) (s : State) : Host.Outcome State Fault Refusal :=
  if lengthBits > s.params.capBits then failWith s .capacity
  else answer (s.setApp { s.app with contentType := type, lengthBits := lengthBits }) .done

/-- The field that a selector of RDCTX names; selectors 6 and above name none (R107). -/
def ctxField (c : Ctx) : Nat → Option Nat
  | 0 => some c.bitCount
  | 1 => some c.finalLength
  | 2 => some (flagsView c)
  | 3 => some c.senderId.toNat
  | 4 => some c.stationary.toNat
  | 5 => some c.contentType.toNat
  | _ => none

/-- `RDCTX m, sel` (R107). -/
def execRdctx (m sel : Nat) (s : State) : Host.Outcome State Fault Refusal :=
  withCtx m s fun c =>
    match ctxField c sel with
    | none => failWith s .illegal
    | some v => answer s (withData v)

end Sys2Proof.Machine
end

