-- ==== Sys2Proof/Machine/Dispatch.lean ====
section
/-! DEFINITION. One arm per command. -/

namespace Sys2Proof.Machine

/-- What a command does to the state (the rules of files 40 to 44 of spec/). -/
def exec (i : Instr) (s : State) : Host.Outcome State Fault Refusal :=
  match i with
  | .addbit m b => Sys2Proof.Machine.execAddbit m b s
  | .add8 m v => Sys2Proof.Machine.execAdd8 m v s
  | .add16 m v => Sys2Proof.Machine.execAdd16 m v s
  | .add32 m v => Sys2Proof.Machine.execAdd32 m v s
  | .getbit m pos => Sys2Proof.Machine.execGetbit m pos s
  | .getchunk m pos len => Sys2Proof.Machine.execGetchunk m pos len s
  | .get8 m pos => Sys2Proof.Machine.execGet8 m pos s
  | .get16 m pos => Sys2Proof.Machine.execGet16 m pos s
  | .get32 m pos => Sys2Proof.Machine.execGet32 m pos s
  | .preptx m => Sys2Proof.Machine.execPreptx m s
  | .preprx m => Sys2Proof.Machine.execPreprx m s
  | .minsize payloadLen => Sys2Proof.Machine.execMinsize payloadLen s
  | .rxpre m => Sys2Proof.Machine.execRxpre m s
  | .rxseal m => Sys2Proof.Machine.execRxseal m s
  | .appwr idx byte => Sys2Proof.Machine.execAppwr idx byte s
  | .apphdr type lengthBits => Sys2Proof.Machine.execApphdr type lengthBits s
  | .rdctx m sel => Sys2Proof.Machine.execRdctx m sel s
  | .addcorr m => Sys2Proof.Machine.execAddcorr m s
  | .chkcorr m => Sys2Proof.Machine.execChkcorr m s
  | .chklen => Sys2Proof.Machine.execChklen s
  | .pktreg => Sys2Proof.Machine.execPktreg s
  | .eccreg => Sys2Proof.Machine.execEccreg s
  | .setcfg reg v => Sys2Proof.Machine.execSetcfg reg v s
  | .getcfg reg => Sys2Proof.Machine.execGetcfg reg s

end Sys2Proof.Machine
end

