-- ==== Sys2Proof/Machine/Port.lean ====
section
/-! DEFINITION. The command port: taking the next command word, and running it (10_state.md R12, 30_encoding.md R60,
R64). Step.lean only calls what stands here. -/

namespace Sys2Proof.Machine

/-- The state with the next command word taken off the port. -/
def State.takeCommand (s : State) : State := { s with commands := s.commands.tail }

/-- The state with a command word offered as the next one (log entry 3). -/
def State.offer (s : State) (w : Word) : State := { s with commands := w :: s.commands }

/-- One command word is run: the command it decodes to, or ILLEGAL where its opcode is none of the 24
(30_encoding.md R64, 60_exceptions.md R166). -/
def runWord (w : Word) (s : State) : Host.Outcome State Fault Refusal :=
  match decode w with
  | .ok i => exec i s
  | .error _ => failWith s .illegal

/-- One step of the block: the next command word, if the host has offered one, is taken and run; else the block holds
its state and does nothing (60_exceptions.md R177; log entry 2). -/
def stepPort (s : State) : Host.Outcome State Fault Refusal :=
  match s.commands with
  | [] => .next s
  | w :: _ => runWord w s.takeCommand

end Sys2Proof.Machine
end

