-- ==== Sys2Proof/Machine/Step.lean ====
section
/-! DEFINITION. The step of the machine, and how a command is placed where the next step fetches it. -/

namespace Sys2Proof.Machine

/-- One step (10_state.md R12): `stepPort`. -/
def step (s : State) : Host.Outcome State Fault Refusal := stepPort s

/-- `s` with the command word whose `nbits` low bits are `w`, and whose other bits are 0, offered as the next command
(log entry 3). -/
def State.withFetchWord (s : State) (nbits w : Nat) : State := s.offer (BitVec.ofNat 64 (w % 2 ^ nbits))

end Sys2Proof.Machine
end

