-- ==== Sys2Proof/WellFormed.lean ====
section
/-! DEFINITION. When a command fits its encoding (30_encoding.md R60, R62) and when parameters meet the constraints of
00_scope.md R5. A value that a command rejects when it runs (GETCHUNK with len > 8, a bad selector or register
number) is well formed: it can be encoded, and its command answers the failure (R64). -/

namespace Sys2Proof

/-- The number fits the 8-bit `MSG` field (R60). -/
def fitsHandle (m : Nat) : Bool := m < 256

/-- The number fits the 16-bit `POS` field (R60). -/
def fitsPos (n : Nat) : Bool := n < 65536

/-- The number fits an 8-bit part of `POS` or `DATA` (R62: `sel`, `i`, `len`). -/
def fitsSmall (n : Nat) : Bool := n < 256

/-- The number fits `DATA[15:0]` (R62: `payloadLen`, `length_bits`). -/
def fitsHalf (n : Nat) : Bool := n < 65536

/-- Every operand of the command fits the bits that R62 gives it. -/
def Instr.wf : Instr → Bool
  | .addbit m _ => fitsHandle m
  | .add8 m _ => fitsHandle m
  | .add16 m _ => fitsHandle m
  | .add32 m _ => fitsHandle m
  | .getbit m pos => fitsHandle m && fitsPos pos
  | .getchunk m pos len => fitsHandle m && fitsPos pos && fitsSmall len
  | .get8 m pos => fitsHandle m && fitsPos pos
  | .get16 m pos => fitsHandle m && fitsPos pos
  | .get32 m pos => fitsHandle m && fitsPos pos
  | .preptx m => fitsHandle m
  | .preprx m => fitsHandle m
  | .minsize payloadLen => fitsHalf payloadLen
  | .rxpre m => fitsHandle m
  | .rxseal m => fitsHandle m
  | .appwr idx _ => fitsPos idx
  | .apphdr _ lengthBits => fitsHalf lengthBits
  | .rdctx m sel => fitsHandle m && fitsSmall sel
  | .addcorr m => fitsHandle m
  | .chkcorr m => fitsHandle m
  | .chklen => true
  | .pktreg => true
  | .eccreg => true
  | .setcfg i _ => fitsSmall i
  | .getcfg i => fitsSmall i

/-- The number is a power of two. -/
def isPowerOfTwo (n : Nat) : Bool := 2 ^ Nat.log2 n = n

/-- The constraints of 00_scope.md R5. That `MIN_SIZE_BYTES` is at most 65536 is DEDUCED from 42_frame_ops.md R102,
whose result is "at most 65536" (log entry 10). The limits of the kinds and of the flags hold by their types. -/
def Params.wf (p : Params) : Bool :=
  decide (1 ≤ p.capBytes) && decide (p.capBytes ≤ 8191)
    && decide (p.preamble.length ≤ p.capBits)
    && isPowerOfTwo p.minSizeBytes && decide (p.minSizeBytes ≤ 65536)
    && decide (p.modemIdMin ≤ p.modemIdReset) && decide (p.modemIdReset ≤ p.modemIdMax)

end Sys2Proof
end

