-- ==== Sys2Proof/Safety.lean ====
section
/-! DEFINITION. What counts as a safe state and a safe run, and the words that claims use: the invariant of every
reachable state, runs of commands, which bits of a word a command reads (30_encoding.md R62), what a command may answer
(60_exceptions.md R167). -/

namespace Sys2Proof.Machine

/-! ## The invariant -/

/-- A store that stands for a buffer of `capBytes` bytes: canonical, with no byte outside. -/
abbrev Memory.fits (mem : Memory) (capBytes : Nat) : Prop := mem.wf ∧ mem.below capBytes

/-- `0 <= final_length <= bit_count <= CAP_BITS` (10_state.md R27), and the buffer is one. -/
abbrev Ctx.wf (p : Params) (c : Ctx) : Prop :=
  c.finalLength ≤ c.bitCount ∧ c.bitCount ≤ p.capBits ∧ c.buf.fits p.capBytes

/-- The declared length fits and the staging bytes are a buffer (10_state.md R29). -/
abbrev App.wf (p : Params) (a : App) : Prop := a.lengthBits ≤ p.capBits ∧ a.data.fits p.capBytes

/-- "A register always holds a legal value" (10_state.md R14). -/
abbrev ConfigReg.legal (p : Params) (id : CfgId) (r : ConfigReg) : Prop :=
  cfgMin p id ≤ r.value.toNat ∧ r.value.toNat ≤ cfgMax p id

/-- Every register is legal, and MODEM_ID and STATIONARY are registered together (10_state.md R14,
44_config_ops.md R150). -/
abbrev ConfigBlock.wf (p : Params) (b : ConfigBlock) : Prop :=
  b.eccMethod.legal p .eccMethod ∧ b.modemId.legal p .modemId ∧ b.stationary.legal p .stationary
    ∧ b.modemId.registered = b.stationary.registered

/-- The invariant of every reachable state: the parameters meet 00_scope.md R5, there are 1 to 256 contexts, and every
context, the staging area and the configuration block are as 10_state.md says. -/
abbrev State.inv (s : State) : Prop :=
  s.params.wf = true ∧ (1 ≤ s.nMsg ∧ s.nMsg ≤ 256) ∧ (∀ c ∈ s.ctxs, c.wf s.params)
    ∧ s.app.wf s.params ∧ s.config.wf s.params

/-! ## Runs -/

/-- The outcome is a next state. -/
def Outcome.isNext (o : Host.Outcome State Fault Refusal) : Bool :=
  match o with
  | .next _ => true
  | .fault _ => false
  | .refused _ => false

/-- Commands one after another, stopping at the first that does not answer a next state. -/
def execAll : List Instr → State → Host.Outcome State Fault Refusal
  | [], s => .next s
  | i :: is, s =>
    match exec i s with
    | .next t => execAll is t
    | .fault f => .fault f
    | .refused r => .refused r

/-! ## Response words -/

/-- The number of a cause (60_exceptions.md R160). -/
def causeNumber : Cause → BitVec 3
  | .capacity => 1
  | .bounds => 2
  | .registration => 3
  | .validation => 4
  | .sync => 5
  | .illegal => 6

/-- The response word of a success with these result fields (30_encoding.md R61). -/
def okWord (flag : Bool) (pos : BitVec 16) (data : BitVec 32) : Word :=
  1#1 ++ 0#3 ++ 0#11 ++ BitVec.ofBool flag ++ pos ++ data

/-- The response word of a failure, with the position it carries (30_encoding.md R61, R62). -/
def failWord (cause : Cause) (pos : BitVec 16) : Word :=
  0#1 ++ causeNumber cause ++ 0#11 ++ 0#1 ++ pos ++ 0#32

/-! ## What an append, an extraction and a bit-serial CRC do -/

/-- Command `i` on context `m` appends the `n` bits `bit 0, bit 1, …` (40_append_ops.md R80 to R83): they stand at the
old cursor, the cursor moves past them, every other bit, field, context and register is as before; where they do not
all fit, CAPACITY and nothing changes. -/
def appendsBits (i : Instr) (m n : Nat) (bit : Nat → Bool) : Prop :=
  ∀ (s : State) (c : Ctx), s.inv → s.ctxs[m]? = some c →
    (c.bitCount + n ≤ s.params.capBits →
      ∃ buf : Memory,
        exec i s = .next
          { s with
            ctxs := s.ctxs.set m { c with buf := buf, bitCount := c.bitCount + n }
            responses := s.responses ++ [okWord false 0 0] }
        ∧ (∀ k, k < n → bitRead buf (c.bitCount + k) = bit k)
        ∧ (∀ q, q < c.bitCount ∨ c.bitCount + n ≤ q → bitRead buf q = bitRead c.buf q))
    ∧ (s.params.capBits < c.bitCount + n →
        exec i s = .next { s with responses := s.responses ++ [failWord .capacity 0] })

/-- Command `i` on context `m` extracts `n` bits from position `pos` and returns position `next` (41_extract_ops.md R90
to R95): the data are right-justified, the first bit read the most significant; nothing else changes. A span past
`bit_count` fails, with CAPACITY where it also runs past the buffer and with BOUNDS where it does not. -/
def extractsBits (i : Instr) (m pos n next : Nat) : Prop :=
  ∀ (s : State) (c : Ctx), s.inv → s.ctxs[m]? = some c →
    (pos + n ≤ c.bitCount →
      ∃ data : BitVec 32,
        exec i s = .next { s with responses := s.responses ++ [okWord false (BitVec.ofNat 16 next) data] }
        ∧ ∀ k, data.getLsbD k = (decide (k < n) && bitRead c.buf (pos + n - 1 - k)))
    ∧ (c.bitCount < pos + n → s.params.capBits < pos + n →
        exec i s = .next { s with responses := s.responses ++ [failWord .capacity (BitVec.ofNat 16 pos)] })
    ∧ (c.bitCount < pos + n → pos + n ≤ s.params.capBits →
        exec i s = .next { s with responses := s.responses ++ [failWord .bounds (BitVec.ofNat 16 pos)] })

/-- `Bit(c, x)` of 43_integrity_ops.md R133: one bit into the top of the register, then one step. -/
def crcBit {width : Nat} (poly c : BitVec width) (x : Bool) : BitVec width :=
  crcStep poly (if x then c ^^^ BitVec.twoPow width (width - 1) else c)

/-- The bit-serial CRC register after positions `0 .. n-1` (43_integrity_ops.md R133). -/
def bitSerialCrc {width : Nat} (poly init : BitVec width) (buf : Memory) (n : Nat) : BitVec width :=
  (List.range n).foldl (fun c p => crcBit poly c (bitRead buf p)) init

/-! ## What a command word's bits are for -/

/-- The handle that a command names, where it has one (30_encoding.md R62). -/
def handleOf : Instr → Option Nat
  | .addbit m _ => some m
  | .add8 m _ => some m
  | .add16 m _ => some m
  | .add32 m _ => some m
  | .getbit m _ => some m
  | .getchunk m _ _ => some m
  | .get8 m _ => some m
  | .get16 m _ => some m
  | .get32 m _ => some m
  | .preptx m => some m
  | .preprx m => some m
  | .minsize _ => none
  | .rxpre m => some m
  | .rxseal m => some m
  | .appwr _ _ => none
  | .apphdr _ _ => none
  | .rdctx m _ => some m
  | .addcorr m => some m
  | .chkcorr m => some m
  | .chklen => none
  | .pktreg => none
  | .eccreg => none
  | .setcfg _ _ => none
  | .getcfg _ => none

/-- The 24 opcodes and, for each, the bits of a word that select it or form an operand of it; the other bits are ignored
(30_encoding.md R62, R63, R65). -/
def opcodeMasks : List (BitVec 8 × Word) :=
  [(0x01, 0xFFFF000000000001), (0x02, 0xFFFF0000000000FF), (0x03, 0xFFFF00000000FFFF),
   (0x04, 0xFFFF0000FFFFFFFF), (0x08, 0xFFFFFFFF00000000), (0x09, 0xFFFFFFFF000000FF),
   (0x0A, 0xFFFFFFFF00000000), (0x0B, 0xFFFFFFFF00000000), (0x0C, 0xFFFFFFFF00000000),
   (0x10, 0xFFFF000000000000), (0x11, 0xFFFF000000000000), (0x12, 0xFF0000000000FFFF),
   (0x13, 0xFFFF000000000000), (0x14, 0xFFFF000000000000), (0x15, 0xFF00FFFF000000FF),
   (0x16, 0xFF0000FF0000FFFF), (0x17, 0xFFFF00FF00000000), (0x20, 0xFFFF000000000000),
   (0x21, 0xFFFF000000000000), (0x22, 0xFF00000000000000), (0x30, 0xFF00000000000000),
   (0x31, 0xFF00000000000000), (0x32, 0xFF0000FFFFFFFFFF), (0x33, 0xFF0000FF00000000)]

/-! ## What a command may do -/

/-- The commands that read and change no state (20_memory.md R48). -/
def readsOnly : Instr → Bool
  | .addbit _ _ => false
  | .add8 _ _ => false
  | .add16 _ _ => false
  | .add32 _ _ => false
  | .getbit _ _ => true
  | .getchunk _ _ _ => true
  | .get8 _ _ => true
  | .get16 _ _ => true
  | .get32 _ _ => true
  | .preptx _ => false
  | .preprx _ => false
  | .minsize _ => true
  | .rxpre _ => false
  | .rxseal _ => false
  | .appwr _ _ => false
  | .apphdr _ _ => false
  | .rdctx _ _ => true
  | .addcorr _ => false
  | .chkcorr _ => true
  | .chklen => true
  | .pktreg => false
  | .eccreg => false
  | .setcfg _ _ => false
  | .getcfg _ => true

/-- The five extraction commands (41_extract_ops.md R95), with the position read and the number of bits read. -/
def extractSpan : Instr → Option (Nat × Nat)
  | .addbit _ _ => none
  | .add8 _ _ => none
  | .add16 _ _ => none
  | .add32 _ _ => none
  | .getbit _ pos => some (pos, 1)
  | .getchunk _ pos len => some (pos, len)
  | .get8 _ pos => some (pos, 8)
  | .get16 _ pos => some (pos, 16)
  | .get32 _ pos => some (pos, 32)
  | .preptx _ => none
  | .preprx _ => none
  | .minsize _ => none
  | .rxpre _ => none
  | .rxseal _ => none
  | .appwr _ _ => none
  | .apphdr _ _ => none
  | .rdctx _ _ => none
  | .addcorr _ => none
  | .chkcorr _ => none
  | .chklen => none
  | .pktreg => none
  | .eccreg => none
  | .setcfg _ _ => none
  | .getcfg _ => none

/-- The causes each command can report (the table of 60_exceptions.md R167). -/
def possibleCauses : Instr → List Cause
  | .addbit _ _ => [.capacity, .illegal]
  | .add8 _ _ => [.capacity, .illegal]
  | .add16 _ _ => [.capacity, .illegal]
  | .add32 _ _ => [.capacity, .illegal]
  | .getbit _ _ => [.capacity, .bounds, .illegal]
  | .getchunk _ _ _ => [.capacity, .bounds, .illegal]
  | .get8 _ _ => [.capacity, .bounds, .illegal]
  | .get16 _ _ => [.capacity, .bounds, .illegal]
  | .get32 _ _ => [.capacity, .bounds, .illegal]
  | .preptx _ => [.capacity, .registration, .illegal]
  | .preprx _ => [.illegal]
  | .minsize _ => []
  | .rxpre _ => [.illegal]
  | .rxseal _ => [.illegal]
  | .appwr _ _ => [.capacity]
  | .apphdr _ _ => [.capacity]
  | .rdctx _ _ => [.illegal]
  | .addcorr _ => [.capacity, .registration, .illegal]
  | .chkcorr _ => [.bounds, .registration, .illegal]
  | .chklen => [.registration]
  | .pktreg => [.registration]
  | .eccreg => [.registration]
  | .setcfg _ _ => [.registration, .validation]
  | .getcfg _ => [.registration]

/-- The command may report the cause, or is a success where there is none. -/
def mayReport (i : Instr) (cause : Option Cause) : Prop :=
  match cause with
  | none => True
  | some c => c ∈ possibleCauses i

end Sys2Proof.Machine
end

