-- ==== Sys2Proof/Certificates/Slice0/Obligations.lean ====
section
/-! DEFINITION. The statements for the provers. Each docstring names the rules of spec/ it formalises. A statement about
all states is about all parameters, since State holds them (log entry 1). A docstring says "derived" where the passage it
names is an inference that the spec marks as its own ("[derived: from …]"). -/

open Sys2Proof Sys2Proof.Machine

/-! ## The command word -/

/-- Decoding an encoded well-formed command gives it back (30_encoding.md R60, R62, R63). -/
def Obligations.DecodeOfEncodeIsTheCommand : Prop :=
  ∀ i : Instr, i.wf = true → decode (encode i) = .ok i

/-- Every command the decoder reads fits its encoding, and encoding it gives the word back with its ignored bits cleared:
no other bit is lost (30_encoding.md R60, R62, R63, R65). -/
def Obligations.EncodeOfDecodeKeepsTheNamedBits : Prop :=
  ∀ (w : Word) (i : Instr), decode w = .ok i →
    i.wf = true ∧ ∃ mask : Word, (opcodeField w, mask) ∈ opcodeMasks ∧ encode i = w &&& mask

/-- "Two command words that differ only in ignored bits have the same effect and response" (30_encoding.md R65). -/
def Obligations.IgnoredBitsChangeNothing : Prop :=
  ∀ (w w' mask : Word) (s : State), (opcodeField w, mask) ∈ opcodeMasks → w &&& mask = w' &&& mask →
    step (s.offer w) = step (s.offer w')

/-- The opcode map has 24 opcodes, and each selects its command with the operands of 30_encoding.md R62 (R63). -/
def Obligations.OpcodeSelectsTheCommandAndItsOperands : Prop :=
  (opcodeMasks.map Prod.fst).Nodup ∧ opcodeMasks.length = 24 ∧
  ∀ w : Word,
    let m := (w.extractLsb 55 48).toNat
    let pos := (w.extractLsb 47 32).toNat
    (w.extractLsb 63 56 = 0x01#8 → decode w = .ok (.addbit m (w.getLsbD 0)))
    ∧ (w.extractLsb 63 56 = 0x02#8 → decode w = .ok (.add8 m (w.extractLsb 7 0)))
    ∧ (w.extractLsb 63 56 = 0x03#8 → decode w = .ok (.add16 m (w.extractLsb 15 0)))
    ∧ (w.extractLsb 63 56 = 0x04#8 → decode w = .ok (.add32 m (w.extractLsb 31 0)))
    ∧ (w.extractLsb 63 56 = 0x08#8 → decode w = .ok (.getbit m pos))
    ∧ (w.extractLsb 63 56 = 0x09#8 → decode w = .ok (.getchunk m pos (w.extractLsb 7 0).toNat))
    ∧ (w.extractLsb 63 56 = 0x0A#8 → decode w = .ok (.get8 m pos))
    ∧ (w.extractLsb 63 56 = 0x0B#8 → decode w = .ok (.get16 m pos))
    ∧ (w.extractLsb 63 56 = 0x0C#8 → decode w = .ok (.get32 m pos))
    ∧ (w.extractLsb 63 56 = 0x10#8 → decode w = .ok (.preptx m))
    ∧ (w.extractLsb 63 56 = 0x11#8 → decode w = .ok (.preprx m))
    ∧ (w.extractLsb 63 56 = 0x12#8 → decode w = .ok (.minsize (w.extractLsb 15 0).toNat))
    ∧ (w.extractLsb 63 56 = 0x13#8 → decode w = .ok (.rxpre m))
    ∧ (w.extractLsb 63 56 = 0x14#8 → decode w = .ok (.rxseal m))
    ∧ (w.extractLsb 63 56 = 0x15#8 → decode w = .ok (.appwr pos (w.extractLsb 7 0)))
    ∧ (w.extractLsb 63 56 = 0x16#8 → decode w = .ok (.apphdr (w.extractLsb 39 32) (w.extractLsb 15 0).toNat))
    ∧ (w.extractLsb 63 56 = 0x17#8 → decode w = .ok (.rdctx m (w.extractLsb 39 32).toNat))
    ∧ (w.extractLsb 63 56 = 0x20#8 → decode w = .ok (.addcorr m))
    ∧ (w.extractLsb 63 56 = 0x21#8 → decode w = .ok (.chkcorr m))
    ∧ (w.extractLsb 63 56 = 0x22#8 → decode w = .ok .chklen)
    ∧ (w.extractLsb 63 56 = 0x30#8 → decode w = .ok .pktreg)
    ∧ (w.extractLsb 63 56 = 0x31#8 → decode w = .ok .eccreg)
    ∧ (w.extractLsb 63 56 = 0x32#8 → decode w = .ok (.setcfg (w.extractLsb 39 32).toNat (w.extractLsb 31 0)))
    ∧ (w.extractLsb 63 56 = 0x33#8 → decode w = .ok (.getcfg (w.extractLsb 39 32).toNat))

/-- A few words of 95_test_vectors.md decode to the commands they stand for. -/
def Obligations.SampleWordsDecode : Prop :=
  decode 0x0100FFFF00000003 = .ok (.addbit 0 true)
  ∧ decode 0x0900001400000008 = .ok (.getchunk 0 20 8)
  ∧ decode 0x1600000700000010 = .ok (.apphdr 7 16)
  ∧ decode 0x2101000000000000 = .ok (.chkcorr 1)
  ∧ decode 0x320000010000000F = .ok (.setcfg 1 15)
  ∧ decode 0x0500000000000000 = .error (.illegalOpcode 0x05)

/-! ## Steps and runs -/

/-- A step takes the next command word off the port and is `exec` of the command it decodes to; with no command offered
the block holds its state (10_state.md R12, 60_exceptions.md R177). That an empty port is a step that changes nothing is
the model's reading (log entry 2). -/
def Obligations.StepRunsTheDecodedCommand : Prop :=
  (∀ (s : State) (w : Word) (rest : List Word) (i : Instr), s.commands = w :: rest → decode w = .ok i →
    step s = exec i { s with commands := rest })
  ∧ ∀ s : State, s.commands = [] → step s = .next s

/-- An undefined opcode, a handle at or above `N_MSG` and an unknown RDCTX selector fail with ILLEGAL; no state changes
and the response is otherwise zero (30_encoding.md R64, 60_exceptions.md R166; for an extraction command with a bad handle
the vector V-X6 of 95_test_vectors.md says so too, log entry 9). -/
def Obligations.IllegalEncodingsFail : Prop :=
  (∀ (s : State) (w : Word) (rest : List Word), s.commands = w :: rest →
    w.extractLsb 63 56 ∉ opcodeMasks.map Prod.fst →
      step s = .next { s with commands := rest, responses := s.responses ++ [failWord .illegal 0] })
  ∧ (∀ (s : State) (i : Instr) (m : Nat), handleOf i = some m → s.nMsg ≤ m →
      exec i s = .next { s with responses := s.responses ++ [failWord .illegal 0] })
  ∧ ∀ (s : State) (m sel : Nat), 5 < sel →
      exec (.rdctx m sel) s = .next { s with responses := s.responses ++ [failWord .illegal 0] }

/-- Where the fields of a response stand (30_encoding.md R61, cause numbers of 60_exceptions.md R160). -/
def Obligations.ResponseWordLayout : Prop :=
  ∀ r : Response,
    r.word.getLsbD 63 = r.ok
    ∧ r.word.extractLsb 62 60 = (match r.cause with | none => 0#3 | some c => causeNumber c)
    ∧ r.word.extractLsb 59 49 = 0#11
    ∧ r.word.getLsbD 48 = r.flag
    ∧ r.word.extractLsb 47 32 = r.pos
    ∧ r.word.extractLsb 31 0 = r.data

/-- Every command that answers a next state adds exactly one response and leaves the parameters, the command queue and
the number of contexts alone (10_state.md R12, 30_encoding.md R61, 00_scope.md R5). -/
def Obligations.EveryCommandAnswersOnce : Prop :=
  ∀ (i : Instr) (s t : State), exec i s = .next t →
    (∃ r : Word, t.responses = s.responses ++ [r])
    ∧ t.params = s.params ∧ t.commands = s.commands ∧ t.ctxs.length = s.ctxs.length

/-- The response of each command has the form of 30_encoding.md R61 and R62, and its cause is one that the table of
60_exceptions.md R167 gives the command. -/
def Obligations.ResponsesHaveTheFormOfTheirCommand : Prop :=
  ∀ (i : Instr) (s t : State), exec i s = .next t →
    ∃ r : Response, t.responses = s.responses ++ [r.word]
      ∧ (r.ok = true ↔ r.cause = none)
      ∧ mayReport i r.cause
      ∧ (r.flag = true → ∃ m, i = .chkcorr m)
      ∧ (r.ok = false → r.flag = false ∧ r.data = 0)
      ∧ (extractSpan i = none → r.pos = 0)

/-- The invariant of reachable states (10_state.md R14, R27, R29, 44_config_ops.md R150) is kept by every step. -/
def Obligations.StepKeepsTheInvariant : Prop :=
  ∀ s t : State, s.inv → step s = .next t → t.inv

/-- Reset meets the invariant, for all parameters within 00_scope.md R5 and any number of contexts it allows. -/
def Obligations.ResetMeetsTheInvariant : Prop :=
  State.reset.inv ∧ ∀ (p : Params) (n : Nat), p.wf = true → 1 ≤ n → n ≤ 256 → (State.resetOf p n).inv

/-- No step stops the machine: "none are fatal" (60_exceptions.md R160). -/
def Obligations.NoStepStopsTheMachine : Prop :=
  ∀ s : State, s.inv → ∃ t : State, step s = .next t

/-- A run answers the offered commands in order, one response each (70_reset_and_hazards.md R193, 10_state.md R12): after
`k` steps the first `k` words are taken and answered, the earlier responses stand first, the invariant holds, and the next
step is the run of word `k`, which adds one response. -/
def Obligations.RunsAnswerEveryCommand : Prop :=
  ∀ s : State, s.inv → ∀ k, k ≤ s.commands.length →
    ∃ u : State, Sys2Proof.core.run k s = .next u
      ∧ u.commands = s.commands.drop k ∧ u.responses.length = s.responses.length + k
      ∧ s.responses <+: u.responses ∧ u.inv
      ∧ ∀ w, s.commands[k]? = some w → ∃ (t : State) (r : Word),
          runWord w { u with commands := s.commands.drop (k + 1) } = .next t
          ∧ Sys2Proof.core.run (k + 1) s = .next t ∧ t.responses = u.responses ++ [r]

/-- What reset leaves (10_state.md R31), for all parameters and numbers of contexts. The parameters' own values, which
`State.reset` takes from REF, are the model's choice (log entry 1). -/
def Obligations.ResetValues : Prop :=
  ∀ (p : Params) (n : Nat),
    let s := State.resetOf p n
    s.config.eccMethod = { value := kindCode p.eccReset, registered := false, modified := false }
    ∧ s.config.modemId = { value := p.modemIdReset, registered := false, modified := false }
    ∧ s.config.stationary = { value := if p.stationaryReset then 1 else 0, registered := false, modified := false }
    ∧ s.ctxs.length = n
    ∧ (∀ c ∈ s.ctxs, c.bitCount = 0 ∧ c.finalLength = 0 ∧ c.preambleReceived = false ∧ c.fullyReceived = false
        ∧ c.senderId = 0 ∧ c.stationary = false ∧ c.contentType = 0 ∧ ∀ a, c.buf.read a = 0)
    ∧ (∀ a, s.app.data.read a = 0) ∧ s.app.lengthBits = 0 ∧ s.app.contentType = 0

/-! ## Buffer bits -/

/-- `BitWrite` sets or clears its bit and leaves every other bit unchanged (20_memory.md R43); the canonical form of the
byte store is the model's own. -/
def Obligations.BitWriteChangesOneBit : Prop :=
  ∀ (mem : Memory) (p : Nat) (b : Bool), mem.wf →
    (bitWrite mem p b).wf
    ∧ (bitWrite mem p b).read (p / 8)
        = ((mem.read (p / 8) &&& ~~~ (0x80#8 >>> (p % 8))) ||| (if b then 0x80#8 >>> (p % 8) else 0))
    ∧ bitRead (bitWrite mem p b) p = b
    ∧ (∀ q, q ≠ p → bitRead (bitWrite mem p b) q = bitRead mem q)
    ∧ (∀ a, a ≠ p / 8 → (bitWrite mem p b).read a = mem.read a)

/-- `MemRead` is the weighted sum of its bits, the first one most significant, and lies below `2^n`
(20_memory.md R44). -/
def Obligations.MemReadIsTheWeightedSum : Prop :=
  ∀ (mem : Memory) (p n : Nat),
    memRead mem p n = ∑ k ∈ Finset.range n, (bitRead mem (p + k)).toNat * 2 ^ (n - 1 - k)
    ∧ memRead mem p 0 = 0 ∧ memRead mem p n < 2 ^ n

/-- `MemWrite` writes the bits of its value, most significant first, reads back, and leaves every other bit alone
(20_memory.md R45; the reading back is derived). -/
def Obligations.MemWriteReadsBack : Prop :=
  ∀ (mem : Memory) (p n v : Nat), mem.wf → v < 2 ^ n →
    memRead (memWrite mem p n v) p n = v
    ∧ (∀ k, k < n → bitRead (memWrite mem p n v) (p + k) = v.testBit (n - 1 - k))
    ∧ ∀ q, q < p ∨ p + n ≤ q → bitRead (memWrite mem p n v) q = bitRead mem q

/-- The two-byte form of a chunk read equals `MemRead` (20_memory.md R47, derived). -/
def Obligations.TwoByteFormOfAChunk : Prop :=
  ∀ (mem : Memory) (p n : Nat), 1 ≤ n → n ≤ 8 →
    let i := p / 8
    let o := p % 8
    let r := n - (8 - o)
    (o + n ≤ 8 → memRead mem p n = ((mem.read i).toNat >>> (8 - o - n)) &&& (2 ^ n - 1))
    ∧ (8 < o + n → memRead mem p n
        = (((mem.read i).toNat &&& (0xFF >>> o)) <<< r) ||| ((mem.read (i + 1)).toNat >>> (8 - r)))

/-! ## Appends -/

/-- `ADDBIT m, b` (40_append_ops.md R80). -/
def Obligations.AddbitAppendsItsBit : Prop :=
  ∀ (m : Nat) (b : Bool), appendsBits (.addbit m b) m 1 fun _ => b

/-- `ADD8`, `ADD16`, `ADD32` append their value most significant bit first, all or nothing (40_append_ops.md R81, R82,
R83). -/
def Obligations.AddsAppendTheirValueMsbFirst : Prop :=
  (∀ (m : Nat) (v : BitVec 8), appendsBits (.add8 m v) m 8 fun k => v.getLsbD (7 - k))
  ∧ (∀ (m : Nat) (v : BitVec 16), appendsBits (.add16 m v) m 16 fun k => v.getLsbD (15 - k))
  ∧ (∀ (m : Nat) (v : BitVec 32), appendsBits (.add32 m v) m 32 fun k => v.getLsbD (31 - k))

/-- A wide append that succeeds leaves the contexts as the same bits appended by one ADDBIT each ("as repeated `AddBit`
calls", 40_append_ops.md R81 to R83). -/
def Obligations.WideAppendsAreRepeatedAddbits : Prop :=
  ∀ (s : State) (m : Nat) (c : Ctx), s.inv → s.ctxs[m]? = some c →
    (∀ v : BitVec 8, c.bitCount + 8 ≤ s.params.capBits → ∃ t u : State,
      exec (.add8 m v) s = .next t
      ∧ execAll ((List.range 8).map fun k => .addbit m (v.getLsbD (7 - k))) s = .next u ∧ t.ctxs = u.ctxs)
    ∧ (∀ v : BitVec 16, c.bitCount + 16 ≤ s.params.capBits → ∃ t u : State,
      exec (.add16 m v) s = .next t
      ∧ execAll ((List.range 16).map fun k => .addbit m (v.getLsbD (15 - k))) s = .next u ∧ t.ctxs = u.ctxs)
    ∧ ∀ v : BitVec 32, c.bitCount + 32 ≤ s.params.capBits → ∃ t u : State,
      exec (.add32 m v) s = .next t
      ∧ execAll ((List.range 32).map fun k => .addbit m (v.getLsbD (31 - k))) s = .next u ∧ t.ctxs = u.ctxs

/-- At a byte-aligned cursor an append stores its value's bytes in big-endian order (40_append_ops.md R81 to R83 corner
cases, 20_memory.md R41). -/
def Obligations.AlignedAppendsStoreBigEndianBytes : Prop :=
  ∀ (s : State) (m : Nat) (c : Ctx), s.inv → s.ctxs[m]? = some c → c.bitCount % 8 = 0 →
    (∀ v : BitVec 8, c.bitCount + 8 ≤ s.params.capBits → ∃ (t : State) (d : Ctx),
      exec (.add8 m v) s = .next t ∧ t.ctxs[m]? = some d ∧ d.buf.read (c.bitCount / 8) = v)
    ∧ (∀ v : BitVec 16, c.bitCount + 16 ≤ s.params.capBits → ∃ (t : State) (d : Ctx),
      exec (.add16 m v) s = .next t ∧ t.ctxs[m]? = some d
      ∧ d.buf.read (c.bitCount / 8) = v.extractLsb 15 8 ∧ d.buf.read (c.bitCount / 8 + 1) = v.extractLsb 7 0)
    ∧ ∀ v : BitVec 32, c.bitCount + 32 ≤ s.params.capBits → ∃ (t : State) (d : Ctx),
      exec (.add32 m v) s = .next t ∧ t.ctxs[m]? = some d
      ∧ d.buf.read (c.bitCount / 8) = v.extractLsb 31 24 ∧ d.buf.read (c.bitCount / 8 + 1) = v.extractLsb 23 16
      ∧ d.buf.read (c.bitCount / 8 + 2) = v.extractLsb 15 8 ∧ d.buf.read (c.bitCount / 8 + 3) = v.extractLsb 7 0

/-- Round trip (40_append_ops.md R84, derived): a value appended is the value extracted from where the cursor stood, with the
position advanced past it, at every alignment. -/
def Obligations.AppendThenExtractRoundTrip : Prop :=
  ∀ (s : State) (m : Nat) (c : Ctx), s.inv → s.ctxs[m]? = some c →
    (∀ v : BitVec 8, c.bitCount + 8 ≤ s.params.capBits → ∃ t : State, exec (.add8 m v) s = .next t
      ∧ exec (.get8 m c.bitCount) t = .next
          { t with responses := t.responses ++ [okWord false (BitVec.ofNat 16 (c.bitCount + 8)) (v.setWidth 32)] })
    ∧ (∀ v : BitVec 16, c.bitCount + 16 ≤ s.params.capBits → ∃ t : State, exec (.add16 m v) s = .next t
      ∧ exec (.get16 m c.bitCount) t = .next
          { t with responses := t.responses ++ [okWord false (BitVec.ofNat 16 (c.bitCount + 16)) (v.setWidth 32)] })
    ∧ ∀ v : BitVec 32, c.bitCount + 32 ≤ s.params.capBits → ∃ t : State, exec (.add32 m v) s = .next t
      ∧ exec (.get32 m c.bitCount) t = .next
          { t with responses := t.responses ++ [okWord false (BitVec.ofNat 16 (c.bitCount + 32)) v] }

/-! ## Extractions -/

/-- `GETBIT m, pos` (41_extract_ops.md R90, R95): the position is not advanced. -/
def Obligations.GetbitReadsItsBit : Prop :=
  ∀ m pos : Nat, extractsBits (.getbit m pos) m pos 1 pos

/-- `GETCHUNK m, pos, len` (41_extract_ops.md R91, R95): a length above 8 fails with BOUNDS before any other check of the
span. -/
def Obligations.GetchunkReadsUpToEightBits : Prop :=
  (∀ m pos len : Nat, len ≤ 8 → extractsBits (.getchunk m pos len) m pos len (pos + len))
  ∧ ∀ (s : State) (m pos len : Nat), m < s.nMsg → 8 < len →
      exec (.getchunk m pos len) s = .next
        { s with responses := s.responses ++ [failWord .bounds (BitVec.ofNat 16 pos)] }

/-- `GET8`, `GET16`, `GET32` (41_extract_ops.md R92, R93, R94, R95). -/
def Obligations.GetsReadWholeValues : Prop :=
  (∀ m pos : Nat, extractsBits (.get8 m pos) m pos 8 (pos + 8))
  ∧ (∀ m pos : Nat, extractsBits (.get16 m pos) m pos 16 (pos + 16))
  ∧ ∀ m pos : Nat, extractsBits (.get32 m pos) m pos 32 (pos + 32)

/-- Fields read one after another are the split of the span they cover (41_extract_ops.md R96, derived). -/
def Obligations.ReadsSplitAtAnyPoint : Prop :=
  ∀ (mem : Memory) (p a b : Nat), memRead mem p (a + b) = memRead mem p a * 2 ^ b + memRead mem (p + a) b

/-! ## Frames -/

/-- `PREPRX m` resets every field of its context (42_frame_ops.md R101). -/
def Obligations.PreprxResetsItsContext : Prop :=
  ∀ (s : State) (m : Nat), m < s.nMsg →
    ∃ c : Ctx, exec (.preprx m) s = .next
        { s with ctxs := s.ctxs.set m c, responses := s.responses ++ [okWord false 0 0] }
      ∧ c.bitCount = 0 ∧ c.finalLength = 0 ∧ c.preambleReceived = false ∧ c.fullyReceived = false
      ∧ c.senderId = 0 ∧ c.stationary = false ∧ c.contentType = 0 ∧ ∀ a, c.buf.read a = 0

/-- `MINSIZE payloadLen` answers the least power of two at or above both its argument and `MIN_SIZE_BYTES`, at most
65536 (42_frame_ops.md R102). -/
def Obligations.MinsizeAnswersTheLeastPowerOfTwo : Prop :=
  ∀ (s : State) (n : Nat), s.inv → n < 65536 →
    ∃ e : Nat, max n s.params.minSizeBytes ≤ 2 ^ e ∧ (∀ d, max n s.params.minSizeBytes ≤ 2 ^ d → 2 ^ e ≤ 2 ^ d)
      ∧ 2 ^ e ≤ 65536
      ∧ exec (.minsize n) s = .next
          { s with responses := s.responses ++ [okWord false 0 (BitVec.ofNat 32 (2 ^ e))] }

/-- The laws of the minimum size: a power of two, not below its argument, below twice the larger of the argument and the
smallest size, monotonic, idempotent (42_frame_ops.md R102, derived). -/
def Obligations.MinimumSizeLaws : Prop :=
  ∀ smallest : Nat, 1 ≤ smallest →
    let size := fun n => leastPower (max n smallest)
    (∀ n, ∃ e, size n = 2 ^ e)
    ∧ (∀ n, n ≤ size n ∧ size n < 2 * max n smallest)
    ∧ (∀ n n', n ≤ n' → size n ≤ size n')
    ∧ ∀ n, size (size n) = size n

/-- `RXPRE m` sets `preamble_received` and nothing else (42_frame_ops.md R103). -/
def Obligations.RxpreSetsThePreambleFlag : Prop :=
  ∀ (s : State) (m : Nat) (c : Ctx), s.ctxs[m]? = some c →
    exec (.rxpre m) s = .next
      { s with
        ctxs := s.ctxs.set m { c with preambleReceived := true }
        responses := s.responses ++ [okWord false 0 0] }

/-- `RXSEAL m` records `bit_count` as `final_length` and sets `fully_received` (42_frame_ops.md R104). -/
def Obligations.RxsealRecordsTheLength : Prop :=
  ∀ (s : State) (m : Nat) (c : Ctx), s.ctxs[m]? = some c →
    exec (.rxseal m) s = .next
      { s with
        ctxs := s.ctxs.set m { c with finalLength := c.bitCount, fullyReceived := true }
        responses := s.responses ++ [okWord false 0 0] }

/-- `APPWR idx, byte` stores one staging byte, or fails with CAPACITY and changes nothing (42_frame_ops.md R105). -/
def Obligations.AppwrStoresOneByte : Prop :=
  ∀ (s : State) (idx : Nat) (byte : BitVec 8), s.inv →
    (idx < s.params.capBytes → ∃ data : Memory,
      exec (.appwr idx byte) s = .next
        { s with app := { s.app with data := data }, responses := s.responses ++ [okWord false 0 0] }
      ∧ data.read idx = byte ∧ ∀ a, a ≠ idx → data.read a = s.app.data.read a)
    ∧ (s.params.capBytes ≤ idx →
        exec (.appwr idx byte) s = .next { s with responses := s.responses ++ [failWord .capacity 0] })

/-- `APPHDR type, length_bits` declares the content type and the length, or fails with CAPACITY and changes neither
(42_frame_ops.md R106). -/
def Obligations.ApphdrDeclaresTheMessage : Prop :=
  ∀ (s : State) (type : BitVec 8) (lengthBits : Nat),
    (lengthBits ≤ s.params.capBits →
      exec (.apphdr type lengthBits) s = .next
        { s with
          app := { data := s.app.data, lengthBits := lengthBits, contentType := type }
          responses := s.responses ++ [okWord false 0 0] })
    ∧ (s.params.capBits < lengthBits →
        exec (.apphdr type lengthBits) s = .next { s with responses := s.responses ++ [failWord .capacity 0] })

/-- `RDCTX m, sel` reads the field its selector names, and fails with ILLEGAL for selectors above 5 (42_frame_ops.md
R107). -/
def Obligations.RdctxReadsTheSelectedField : Prop :=
  ∀ (s : State) (m : Nat) (c : Ctx), s.ctxs[m]? = some c →
    let reads := fun (sel : Nat) (data : BitVec 32) =>
      exec (.rdctx m sel) s = .next { s with responses := s.responses ++ [okWord false 0 data] }
    reads 0 (BitVec.ofNat 32 c.bitCount)
    ∧ reads 1 (BitVec.ofNat 32 c.finalLength)
    ∧ reads 2 (0#30 ++ BitVec.ofBool c.fullyReceived ++ BitVec.ofBool c.preambleReceived)
    ∧ reads 3 (c.senderId.setWidth 32)
    ∧ reads 4 ((BitVec.ofBool c.stationary).setWidth 32)
    ∧ reads 5 (c.contentType.setWidth 32)
    ∧ ∀ sel, 5 < sel →
        exec (.rdctx m sel) s = .next { s with responses := s.responses ++ [failWord .illegal 0] }

/-- A successful PREPTX of framed content (42_frame_ops.md R100, 30_encoding.md R70, R71): preamble, payload, trailer,
every later bit 0, the lengths their sum, the snapshot taken, the frame sealed; nothing else changes. -/
def Obligations.PreptxBuildsTheFrame : Prop :=
  ∀ (s : State) (m : Nat) (kind : Kind), s.inv → m < s.nMsg →
    s.config.modemId.registered = true → s.config.stationary.registered = true →
    s.config.eccMethod.registered = true → s.config.eccMethod.value = kindCode kind →
    s.app.contentType ≠ s.params.evalType →
    let P := s.params.preamble.length
    let L := s.app.lengthBits
    let W := trailerWidth kind
    P + L + W ≤ s.params.capBits →
    ∃ buf : Memory,
      exec (.preptx m) s = .next
        { s with
          ctxs := s.ctxs.set m
            { buf := buf, bitCount := P + L + W, finalLength := P + L + W
              preambleReceived := false, fullyReceived := true
              senderId := s.config.modemId.value
              stationary := s.config.stationary.value.getLsbD 0
              contentType := s.app.contentType }
          responses := s.responses ++ [okWord false 0 0] }
      ∧ (∀ j, j < P → bitRead buf j = s.params.preamble.getD j false)
      ∧ (∀ j, j < L → bitRead buf (P + j) = bitRead s.app.data j)
      ∧ memRead buf (P + L) W = code kind s.params.crcTailShifts buf (P + L)
      ∧ ∀ q, P + L + W ≤ q → bitRead buf q = false

/-- A PREPTX of evaluation content (42_frame_ops.md R100, 30_encoding.md R70, R71): the payload alone, with no need of
ECC_METHOD. -/
def Obligations.PreptxBuildsTheEvaluationFrame : Prop :=
  ∀ (s : State) (m : Nat), s.inv → m < s.nMsg →
    s.config.modemId.registered = true → s.config.stationary.registered = true →
    s.app.contentType = s.params.evalType →
    let L := s.app.lengthBits
    ∃ buf : Memory,
      exec (.preptx m) s = .next
        { s with
          ctxs := s.ctxs.set m
            { buf := buf, bitCount := L, finalLength := L
              preambleReceived := false, fullyReceived := true
              senderId := s.config.modemId.value
              stationary := s.config.stationary.value.getLsbD 0
              contentType := s.app.contentType }
          responses := s.responses ++ [okWord false 0 0] }
      ∧ (∀ j, j < L → bitRead buf j = bitRead s.app.data j)
      ∧ ∀ q, L ≤ q → bitRead buf q = false

/-- A PREPTX that fails (42_frame_ops.md R108, 60_exceptions.md R169): with MODEM_ID or STATIONARY unregistered nothing
changes; later, both flags of the context are 0, its other fields are any values within 10_state.md R27, and nothing
else changes but the model's count of draws (log entry 5). CAPACITY of the preamble and payload comes before
REGISTRATION of ECC_METHOD, which comes before CAPACITY of the trailer. -/
def Obligations.PreptxFailsAsTheRuleSays : Prop :=
  ∀ (s : State) (m : Nat), s.inv → m < s.nMsg →
    ((s.config.modemId.registered = false ∨ s.config.stationary.registered = false) →
      exec (.preptx m) s = .next { s with responses := s.responses ++ [failWord .registration 0] })
    ∧ (s.config.modemId.registered = true → s.config.stationary.registered = true →
       s.app.contentType ≠ s.params.evalType →
        let body := s.params.preamble.length + s.app.lengthBits
        let fails := fun cause => ∃ c : Ctx,
          exec (.preptx m) s = .next
            { s with ctxs := s.ctxs.set m c, responses := s.responses ++ [failWord cause 0], draws := s.draws + 1 }
          ∧ c.preambleReceived = false ∧ c.fullyReceived = false ∧ c.wf s.params
        (s.params.capBits < body → fails .capacity)
        ∧ (body ≤ s.params.capBits → s.config.eccMethod.registered = false → fails .registration)
        ∧ ∀ kind, body ≤ s.params.capBits → s.config.eccMethod.registered = true →
            s.config.eccMethod.value = kindCode kind → s.params.capBits < body + trailerWidth kind → fails .capacity)

/-! ## Integrity -/

/-- A code depends on no bit at or after position `n` (43_integrity_ops.md R121). -/
def Obligations.CodeDependsOnCoveredBitsOnly : Prop :=
  ∀ (kind : Kind) (tail : TailShifts) (buf buf' : Memory) (n : Nat),
    (∀ q, q < n → bitRead buf q = bitRead buf' q) → code kind tail buf n = code kind tail buf' n

/-- A code fits its trailer (43_integrity_ops.md R129). -/
def Obligations.CodeFitsItsTrailer : Prop :=
  ∀ (kind : Kind) (tail : TailShifts) (buf : Memory) (n : Nat), code kind tail buf n < 2 ^ trailerWidth kind

/-- With `CRC_TAIL_SHIFTS = BITS` each CRC is the bit-serial CRC of exactly the covered bits, with the polynomials,
initial registers and final complement of 43_integrity_ops.md R123 to R125 (R133, derived). -/
def Obligations.CrcsAreBitSerialUnderBits : Prop :=
  ∀ (buf : Memory) (n : Nat),
    code .crc8 .bits buf n = (bitSerialCrc 0x07#8 0x00#8 buf n).toNat
    ∧ code .crc16 .bits buf n = (bitSerialCrc 0x1021#16 0xFFFF#16 buf n).toNat
    ∧ code .crc32 .bits buf n = (bitSerialCrc 0x04C11DB7#32 0xFFFFFFFF#32 buf n ^^^ 0xFFFFFFFF#32).toNat

/-- With `CRC_TAIL_SHIFTS = BYTE` each CRC is the CRC of the covered bits padded with zero bits to a byte boundary
(43_integrity_ops.md R133). -/
def Obligations.CrcsPadWithZerosUnderByte : Prop :=
  ∀ (kind : Kind) (buf padded : Memory) (n : Nat), kind ∈ [Kind.crc8, Kind.crc16, Kind.crc32] →
    (∀ q, q < n → bitRead padded q = bitRead buf q) →
    (∀ q, n ≤ q → q < 8 * ((n + 7) / 8) → bitRead padded q = false) →
    code kind .byte buf n = code kind .bits padded (8 * ((n + 7) / 8))

/-- The checksums are the sums, modulo the code's width, of the covered bytes at their big-endian places in groups of 1, 2
and 4 (43_integrity_ops.md R126, R127, R128). -/
def Obligations.ChecksumsAreBigEndianGroupSums : Prop :=
  ∀ (tail : TailShifts) (buf : Memory) (n : Nat),
    let bytes := coveredBytes buf n
    let sum := fun g => ∑ x ∈ Finset.range bytes.length, (bytes.getD x 0).toNat * 256 ^ (g - 1 - x % g)
    code .checksum8 tail buf n = sum 1 % 2 ^ 8
    ∧ code .checksum16 tail buf n = sum 2 % 2 ^ 16
    ∧ code .checksum32 tail buf n = sum 4 % 2 ^ 32

/-- The bytes a checksum sums: byte by byte the covered bits, the last byte's low bits 0 where bits are left over
(43_integrity_ops.md R121). -/
def Obligations.CoveredBytesHoldTheCoveredBits : Prop :=
  ∀ (buf : Memory) (n : Nat),
    (coveredBytes buf n).length = (n + 7) / 8
    ∧ ∀ x j, x < (n + 7) / 8 → j < 8 →
        ((coveredBytes buf n).getD x 0).getLsbD (7 - j) = (decide (8 * x + j < n) && bitRead buf (8 * x + j))

/-- `ADDCORR m` (43_integrity_ops.md R130): the code of the bits so far goes in at the cursor, and the cursor and
`final_length` grow by its width; REGISTRATION and CAPACITY change nothing. -/
def Obligations.AddcorrAppendsTheCode : Prop :=
  ∀ (s : State) (m : Nat) (c : Ctx), s.inv → s.ctxs[m]? = some c →
    (s.config.eccMethod.registered = false →
      exec (.addcorr m) s = .next { s with responses := s.responses ++ [failWord .registration 0] })
    ∧ ∀ kind, s.config.eccMethod.registered = true → s.config.eccMethod.value = kindCode kind →
        (s.params.capBits < c.bitCount + trailerWidth kind →
          exec (.addcorr m) s = .next { s with responses := s.responses ++ [failWord .capacity 0] })
        ∧ (c.bitCount + trailerWidth kind ≤ s.params.capBits → ∃ buf : Memory,
            exec (.addcorr m) s = .next
              { s with
                ctxs := s.ctxs.set m
                  { c with
                    buf := buf
                    bitCount := c.bitCount + trailerWidth kind
                    finalLength := c.finalLength + trailerWidth kind }
                responses := s.responses ++ [okWord false 0 0] }
            ∧ memRead buf c.bitCount (trailerWidth kind) = code kind s.params.crcTailShifts c.buf c.bitCount
            ∧ ∀ q, q < c.bitCount ∨ c.bitCount + trailerWidth kind ≤ q → bitRead buf q = bitRead c.buf q)

/-- `CHKCORR m` (43_integrity_ops.md R131) with the polarity of each kind: the flag says equal for CRC-8 and CRC-32 and
unequal for the four others. BOUNDS where there is no room for a trailer, or where `final_length` lies above `bit_count`,
which 10_state.md R27 rules out of every reachable state. -/
def Obligations.ChkcorrReportsWithItsPolarity : Prop :=
  ∀ (s : State) (m : Nat) (c : Ctx), s.ctxs[m]? = some c →
    (s.config.eccMethod.registered = false →
      exec (.chkcorr m) s = .next { s with responses := s.responses ++ [failWord .registration 0] })
    ∧ ∀ kind, s.config.eccMethod.registered = true → s.config.eccMethod.value = kindCode kind →
        (c.finalLength < trailerWidth kind ∨ c.bitCount < c.finalLength →
          exec (.chkcorr m) s = .next { s with responses := s.responses ++ [failWord .bounds 0] })
        ∧ (trailerWidth kind ≤ c.finalLength → c.finalLength ≤ c.bitCount → c.bitCount ≤ s.params.capBits →
            let n := c.finalLength - trailerWidth kind
            let computed := code kind s.params.crcTailShifts c.buf n
            let received := memRead c.buf n (trailerWidth kind)
            let equal := decide (computed = received)
            let flag := if kind = .crc8 ∨ kind = .crc32 then equal else !equal
            exec (.chkcorr m) s = .next { s with responses := s.responses ++ [okWord flag 0 0] })

/-- `CHKLEN` answers the trailer width of the current selection (43_integrity_ops.md R132). -/
def Obligations.ChklenAnswersTheTrailerWidth : Prop :=
  ∀ s : State,
    (s.config.eccMethod.registered = false →
      exec .chklen s = .next { s with responses := s.responses ++ [failWord .registration 0] })
    ∧ (s.config.eccMethod.registered = true → ∀ k : Nat, k < 6 → s.config.eccMethod.value = BitVec.ofNat 8 k →
        exec .chklen s = .next
          { s with responses := s.responses ++ [okWord false 0 ([8, 16, 32, 8, 16, 32].getD k 0)] })

/-- Loop-back (43_integrity_ops.md R134, derived; 42_frame_ops.md R110): a frame built by PREPTX and fed bit by bit into another
context, sealed and checked with the same kind, reports a match: flag 1 for CRC-8 and CRC-32, flag 0 for the others. -/
def Obligations.LoopBackReportsAMatch : Prop :=
  ∀ (s : State) (m m' : Nat) (kind : Kind), s.inv → m < s.nMsg → m' < s.nMsg → m ≠ m' →
    s.config.modemId.registered = true → s.config.stationary.registered = true →
    s.config.eccMethod.registered = true → s.config.eccMethod.value = kindCode kind →
    s.app.contentType ≠ s.params.evalType →
    s.params.preamble.length + s.app.lengthBits + trailerWidth kind ≤ s.params.capBits →
    ∃ (t u : State) (c : Ctx),
      exec (.preptx m) s = .next t ∧ t.ctxs[m]? = some c
      ∧ execAll
          ([.preprx m'] ++ ((List.range c.finalLength).map fun q => .addbit m' (bitRead c.buf q))
            ++ [.rxpre m', .rxseal m', .chkcorr m']) t = .next u
      ∧ u.responses.getLast? = some (okWord (decide (kind = .crc8 ∨ kind = .crc32)) 0 0)

/-! ## Configuration -/

/-- `PKTREG` (44_config_ops.md R150). -/
def Obligations.PktregRegistersOnce : Prop :=
  ∀ s : State, s.inv →
    (s.config.modemId.registered = false →
      exec .pktreg s = .next
        { s with
          config :=
            { s.config with
              modemId := { s.config.modemId with registered := true }
              stationary := { s.config.stationary with registered := true } }
          responses := s.responses ++ [okWord false 0 0] })
    ∧ (s.config.modemId.registered = true →
        exec .pktreg s = .next { s with responses := s.responses ++ [failWord .registration 0] })

/-- `ECCREG` (44_config_ops.md R151). -/
def Obligations.EccregRegistersOnce : Prop :=
  ∀ s : State,
    (s.config.eccMethod.registered = false →
      exec .eccreg s = .next
        { s with
          config := { s.config with eccMethod := { s.config.eccMethod with registered := true } }
          responses := s.responses ++ [okWord false 0 0] })
    ∧ (s.config.eccMethod.registered = true →
        exec .eccreg s = .next { s with responses := s.responses ++ [failWord .registration 0] })

/-- `SETCFG i, v` (44_config_ops.md R152): REGISTRATION, VALIDATION, the no-op, the effective write. -/
def Obligations.SetcfgChecksThenWrites : Prop :=
  ∀ (s : State) (v : BitVec 32), s.inv →
    (∀ i, 3 ≤ i → exec (.setcfg i v) s = .next { s with responses := s.responses ++ [failWord .registration 0] })
    ∧ ∀ (i : Nat) (id : CfgId), (i, id) ∈ [(0, CfgId.eccMethod), (1, .modemId), (2, .stationary)] →
        let r := s.cfg id
        let low := match id with | .eccMethod => 0 | .modemId => s.params.modemIdMin.toNat | .stationary => 0
        let high := match id with | .eccMethod => 5 | .modemId => s.params.modemIdMax.toNat | .stationary => 1
        (r.registered = false →
          exec (.setcfg i v) s = .next { s with responses := s.responses ++ [failWord .registration 0] })
        ∧ (r.registered = true → v.toNat < low ∨ high < v.toNat →
            exec (.setcfg i v) s = .next { s with responses := s.responses ++ [failWord .validation 0] })
        ∧ (r.registered = true → low ≤ v.toNat → v.toNat ≤ high → v.toNat = r.value.toNat →
            exec (.setcfg i v) s = .next { s with responses := s.responses ++ [okWord false 0 0] })
        ∧ (r.registered = true → low ≤ v.toNat → v.toNat ≤ high → v.toNat ≠ r.value.toNat →
            ∃ config : ConfigBlock,
              exec (.setcfg i v) s = .next { s with config := config, responses := s.responses ++ [okWord false 0 0] }
              ∧ (∀ id', id' ≠ id → { s with config := config }.cfg id' = s.cfg id')
              ∧ ({ s with config := config }.cfg id).value.toNat = v.toNat
              ∧ ({ s with config := config }.cfg id).registered = true
              ∧ ({ s with config := config }.cfg id).modified = true)

/-- `GETCFG i` (44_config_ops.md R153). -/
def Obligations.GetcfgReadsARegisteredRegister : Prop :=
  ∀ s : State,
    (∀ i, 3 ≤ i → exec (.getcfg i) s = .next { s with responses := s.responses ++ [failWord .registration 0] })
    ∧ ∀ (i : Nat) (id : CfgId), (i, id) ∈ [(0, CfgId.eccMethod), (1, .modemId), (2, .stationary)] →
        ((s.cfg id).registered = false →
          exec (.getcfg i) s = .next { s with responses := s.responses ++ [failWord .registration 0] })
        ∧ ((s.cfg id).registered = true →
            exec (.getcfg i) s = .next
              { s with responses := s.responses ++ [okWord false 0 ((s.cfg id).value.setWidth 32)] })

/-! ## What no command does -/

/-- A failed command leaves the state exactly as it was but for its response; PREPTX is the one exception
(60_exceptions.md R170). -/
def Obligations.FailedCommandsChangeNothing : Prop :=
  ∀ (i : Instr) (s t : State) (r : Word), (∀ m, i ≠ .preptx m) → exec i s = .next t →
    t.responses = s.responses ++ [r] → r.getLsbD 63 = false →
      t = { s with responses := s.responses ++ [r] }

/-- A command that names context `m` changes no other context, no configuration register and no staging data, and a
command that names none changes no context (the write half of 10_state.md R20; OtherContextsAreNotRead is the read half). -/
def Obligations.ContextsAreIndependent : Prop :=
  ∀ (i : Instr) (s t : State), exec i s = .next t →
    (∀ m', handleOf i ≠ some m' → t.ctxs[m']? = s.ctxs[m']?)
    ∧ ∀ m, handleOf i = some m → t.config = s.config ∧ t.app = s.app

/-- The extraction commands, CHKCORR, CHKLEN, MINSIZE, GETCFG and RDCTX leave all state unchanged (20_memory.md R48). -/
def Obligations.ReadingCommandsChangeNothing : Prop :=
  ∀ (i : Instr) (s t : State), readsOnly i = true → exec i s = .next t →
    ∃ r : Word, t = { s with responses := s.responses ++ [r] }

/-- Bits already appended stay: no command but the two that reset a context moves its cursor back or changes a bit below
it (20_memory.md R40, 10_state.md R22). -/
def Obligations.AppendedBitsStay : Prop :=
  ∀ (i : Instr) (s t : State) (m : Nat) (c d : Ctx), s.inv → exec i s = .next t →
    s.ctxs[m]? = some c → t.ctxs[m]? = some d → i ≠ .preprx m → i ≠ .preptx m →
      c.bitCount ≤ d.bitCount ∧ ∀ q, q < c.bitCount → bitRead d.buf q = bitRead c.buf q

/-- Who writes `final_length`, the receive flags and the metadata of a context, besides the two commands that reset it
(10_state.md R23 to R26): ADDCORR adds the trailer width, RXSEAL records the cursor and sets `fully_received`, RXPRE sets
`preamble_received`, and nothing writes the metadata. -/
def Obligations.ContextFieldsHaveTheirWriters : Prop :=
  ∀ (i : Instr) (s t : State) (m : Nat) (c d : Ctx), exec i s = .next t →
    s.ctxs[m]? = some c → t.ctxs[m]? = some d → i ≠ .preprx m → i ≠ .preptx m →
      (d.finalLength ≠ c.finalLength →
        (i = .rxseal m ∧ d.finalLength = c.bitCount)
        ∨ (i = .addcorr m ∧ ∃ kind, s.config.eccMethod.value = kindCode kind
            ∧ d.finalLength = c.finalLength + trailerWidth kind))
      ∧ (d.preambleReceived ≠ c.preambleReceived → i = .rxpre m ∧ d.preambleReceived = true)
      ∧ (d.fullyReceived ≠ c.fullyReceived → i = .rxseal m ∧ d.fullyReceived = true)
      ∧ d.senderId = c.senderId ∧ d.stationary = c.stationary ∧ d.contentType = c.contentType

/-- Who writes the configuration block and the staging area (10_state.md R14, R18, R19, R29): a value or a modified flag
changes only by SETCFG of that register while it is registered, a modified flag is never cleared, a registration is made
only by its hook and never undone, and the staging area changes only by APPWR and APPHDR. -/
def Obligations.ConfigurationAndStagingHaveTheirWriters : Prop :=
  ∀ (i : Instr) (s t : State) (id : CfgId), exec i s = .next t →
    ((t.cfg id).value ≠ (s.cfg id).value ∨ (t.cfg id).modified ≠ (s.cfg id).modified →
      (∃ j v, i = .setcfg j v ∧ (j, id) ∈ [(0, CfgId.eccMethod), (1, .modemId), (2, .stationary)])
      ∧ (s.cfg id).registered = true ∧ (t.cfg id).modified = true)
    ∧ ((t.cfg id).registered ≠ (s.cfg id).registered →
        (t.cfg id).registered = true ∧ i = (if id = .eccMethod then .eccreg else .pktreg))
    ∧ (t.app ≠ s.app → (∃ idx byte, i = .appwr idx byte) ∨ ∃ type lengthBits, i = .apphdr type lengthBits)

/-- A command reads no field of a context that it does not name (the read half of 10_state.md R20): with other contexts in
those places, the named one alike, it answers the same response, leaves the same in the named context, and makes the same
change to everything that is no context; a command that names none is the same whatever the contexts hold. -/
def Obligations.OtherContextsAreNotRead : Prop :=
  ∀ (i : Instr) (s t : State) (others : List Ctx), exec i s = .next t →
    (∀ m, handleOf i = some m → others[m]? = s.ctxs[m]? →
      ∃ after : List Ctx, exec i { s with ctxs := others } = .next { t with ctxs := after }
        ∧ after[m]? = t.ctxs[m]? ∧ ∀ m', m' ≠ m → after[m']? = others[m']?)
    ∧ (handleOf i = none → exec i { s with ctxs := others } = .next { t with ctxs := others })
end

