-- ==== Sys2Proof/Laws/Memory.lean ====
section
/-! SUPPORT. The laws of the byte store and of bit access: a write is read back and leaves everything else alone, and
every operation keeps the canonical form. -/

namespace Sys2Proof.Machine

/-! ## Bytes -/

theorem Memory.read_of_absent (mem : Memory) (x : Nat) (h : ∀ c ∈ mem, c.1 ≠ x) : mem.read x = blankByte := by
  induction mem with
  | nil => rfl
  | cons c rest ih =>
    obtain ⟨a, v⟩ := c
    have hne : x ≠ a := fun e => h (a, v) (by simp) e.symm
    simp only [Memory.read, hne, if_false]
    exact ih fun c hc => h c (by simp [hc])

theorem mem_consCell {a : Nat} {v : Byte} {rest : Memory} {c : Host.Cell} (h : c ∈ consCell a v rest) :
    c = (a, v) ∨ c ∈ rest := by
  unfold consCell at h
  split at h
  · exact .inr h
  · simpa using h

theorem consCell_wf {a : Nat} {v : Byte} {rest : Memory} (h : rest.wf) (hlt : ∀ c ∈ rest, a < c.1) :
    Memory.wf (consCell a v rest) := by
  unfold consCell
  split
  · exact h
  · next hv => exact ⟨List.pairwise_cons.2 ⟨hlt, h.1⟩, List.forall_mem_cons.2 ⟨hv, h.2⟩⟩

theorem read_consCell {a : Nat} {v : Byte} {rest : Memory} (hlt : ∀ c ∈ rest, a < c.1) (x : Nat) :
    Memory.read (consCell a v rest) x = if x = a then v else rest.read x := by
  unfold consCell
  split
  · next hv =>
    split
    · next hx => rw [hx, hv]; exact Memory.read_of_absent _ _ fun c hc => by have := hlt c hc; omega
    · rfl
  · rfl

theorem Memory.wf_tail {c : Host.Cell} {rest : Memory} (h : Memory.wf (c :: rest)) : Memory.wf rest :=
  ⟨(List.pairwise_cons.1 h.1).2, fun d hd => h.2 d (by simp [hd])⟩

theorem Memory.wf_head_lt {c : Host.Cell} {rest : Memory} (h : Memory.wf (c :: rest)) : ∀ d ∈ rest, c.1 < d.1 :=
  (List.pairwise_cons.1 h.1).1

theorem Memory.mem_write {mem : Memory} {x : Nat} {v : Byte} {c : Host.Cell} (h : c ∈ mem.write x v) :
    c = (x, v) ∨ c ∈ mem := by
  induction mem with
  | nil => simpa using mem_consCell h
  | cons d rest ih =>
    obtain ⟨a, w⟩ := d
    simp only [Memory.write] at h
    split at h
    · exact mem_consCell h
    · split at h
      · rcases mem_consCell h with h | h <;> simp [h]
      · rcases List.mem_cons.1 h with h | h
        · simp [h]
        · rcases ih h with h | h <;> simp [h]

/-- A write keeps the canonical form. -/
theorem Memory.write_wf {mem : Memory} (h : mem.wf) (x : Nat) (v : Byte) : (mem.write x v).wf := by
  induction mem with
  | nil => exact consCell_wf h (by simp)
  | cons d rest ih =>
    obtain ⟨a, w⟩ := d
    have hlt := Memory.wf_head_lt h
    simp only [Memory.write]
    split
    · next hx =>
      refine consCell_wf h fun c hc => ?_
      rcases List.mem_cons.1 hc with rfl | hc
      · exact hx
      · exact lt_trans hx (hlt c hc)
    · split
      · next hx => exact consCell_wf (Memory.wf_tail h) (by simpa [hx] using hlt)
      · next h1 h2 =>
        refine ⟨List.pairwise_cons.2 ⟨fun c hc => ?_, (ih (Memory.wf_tail h)).1⟩, fun c hc => ?_⟩
        · rcases Memory.mem_write hc with rfl | hc
          · show a < x; omega
          · exact hlt c hc
        · rcases List.mem_cons.1 hc with rfl | hc
          · exact h.2 _ (by simp)
          · exact (ih (Memory.wf_tail h)).2 c hc

/-- A write below `n` keeps every address below `n`. -/
theorem Memory.write_below {mem : Memory} {n x : Nat} (h : mem.below n) (hx : x < n) (v : Byte) :
    (mem.write x v).below n := fun c hc => by
  rcases Memory.mem_write hc with rfl | hc
  · exact hx
  · exact h c hc

/-- The byte written is read back, and every other byte reads as before. -/
theorem Memory.read_write {mem : Memory} (h : mem.wf) (x : Nat) (v : Byte) (y : Nat) :
    (mem.write x v).read y = if y = x then v else mem.read y := by
  induction mem with
  | nil => exact read_consCell (rest := []) (by simp) y
  | cons d rest ih =>
    obtain ⟨a, w⟩ := d
    have hlt := Memory.wf_head_lt h
    simp only [Memory.write]
    split
    · next hx =>
      refine read_consCell (fun c hc => ?_) y
      rcases List.mem_cons.1 hc with rfl | hc
      · exact hx
      · exact lt_trans hx (hlt c hc)
    · split
      · next hx =>
        rw [read_consCell (by simpa [hx] using hlt)]
        simp only [Memory.read, hx]
        split <;> rfl
      · next h1 h2 =>
        simp only [Memory.read, ih (Memory.wf_tail h)]
        by_cases hy : y = a
        · have : y ≠ x := by omega
          rw [if_pos hy, if_neg this, if_pos hy]
        · rw [if_neg hy, if_neg hy]

theorem Memory.tabulate_lower (f : Nat → Byte) (n : Nat) :
    ∀ start, ∀ c ∈ Memory.tabulate f start n, start ≤ c.1 ∧ c.1 < start + n := by
  induction n with
  | zero => simp [Memory.tabulate]
  | succ n ih =>
    intro start c hc
    rcases mem_consCell hc with rfl | hc
    · simp
    · have := ih _ c hc; omega

/-- A tabulated store is in canonical form. -/
theorem Memory.tabulate_wf (f : Nat → Byte) (n : Nat) : ∀ start, (Memory.tabulate f start n).wf := by
  induction n with
  | zero => simp [Memory.tabulate, Memory.wf]
  | succ n ih =>
    exact fun start => consCell_wf (ih _) fun c hc => by have := Memory.tabulate_lower f n _ c hc; omega

/-- What a tabulated store holds. -/
theorem Memory.read_tabulate (f : Nat → Byte) (n : Nat) : ∀ start x,
    (Memory.tabulate f start n).read x = if start ≤ x ∧ x < start + n then f x else blankByte := by
  induction n with
  | zero => intro start x; rw [if_neg (by omega)]; rfl
  | succ n ih =>
    intro start x
    rw [Memory.tabulate, read_consCell (fun c hc => by have := Memory.tabulate_lower f n _ c hc; omega), ih]
    by_cases hx : x = start
    · rw [if_pos hx, if_pos (by omega), hx]
    · rw [if_neg hx]; split <;> split <;> first | rfl | omega

/-! ## Bits -/

theorem bitMask_getLsbD (p i : Nat) (hi : i < 8) : (bitMask p).getLsbD i = decide (i = 7 - p % 8) := by
  have hp : p % 8 < 8 := Nat.mod_lt _ (by decide)
  unfold bitMask
  generalize p % 8 = r at hp ⊢
  have key : ∀ (i r : Fin 8), ((0x80#8 >>> r.val : BitVec 8)).getLsbD i.val = decide (i.val = 7 - r.val) := by decide
  exact key ⟨i, hi⟩ ⟨r, hp⟩

/-- `BitWrite` keeps the canonical form. -/
theorem bitWrite_wf {mem : Memory} (h : mem.wf) (p : Nat) (b : Bool) : (bitWrite mem p b).wf :=
  Memory.write_wf h _ _

/-- `BitWrite` at a position of the buffer stays in the buffer. -/
theorem bitWrite_below {mem : Memory} {n p : Nat} (h : mem.below n) (hp : p < 8 * n) (b : Bool) :
    (bitWrite mem p b).below n := Memory.write_below h (by omega) _

/-- `BitWrite` sets its bit and leaves every other bit alone (20_memory.md R43). -/
theorem bitRead_bitWrite {mem : Memory} (h : mem.wf) (p : Nat) (b : Bool) (q : Nat) :
    bitRead (bitWrite mem p b) q = if q = p then b else bitRead mem q := by
  have hi : 7 - q % 8 < 8 := by omega
  unfold bitRead bitWrite
  rw [Memory.read_write h]
  by_cases hbyte : q / 8 = p / 8
  · rw [if_pos hbyte, hbyte]
    simp only [BitVec.getLsbD_or, BitVec.getLsbD_and, BitVec.getLsbD_not, hi, decide_true, Bool.true_and]
    rw [bitMask_getLsbD p _ hi]
    by_cases hq : q = p
    · subst hq
      cases b
      · simp
      · simp [bitMask_getLsbD q _ hi]
    · have hne : ¬ (7 - q % 8 = 7 - p % 8) := by omega
      rw [if_neg hq]
      cases b
      · simp [hne]
      · simp [hne, bitMask_getLsbD p _ hi]
  · rw [if_neg hbyte, if_neg (fun e => hbyte (by rw [e]))]

/-- A run of bit writes keeps the canonical form. -/
theorem putBits_wf {mem : Memory} (h : mem.wf) (bs : List Bool) : ∀ p, (putBits mem p bs).wf := by
  induction bs generalizing mem with
  | nil => exact fun _ => h
  | cons b bs ih => exact fun p => ih (bitWrite_wf h p b) _

/-- A run of bit writes within the buffer stays in the buffer. -/
theorem putBits_below {n : Nat} (bs : List Bool) : ∀ {mem : Memory} {p : Nat}, mem.below n → p + bs.length ≤ 8 * n →
    (putBits mem p bs).below n := by
  induction bs with
  | nil => exact fun h _ => h
  | cons b bs ih =>
    intro mem p h hp
    simp only [List.length_cons] at hp
    exact ih (bitWrite_below h (by omega) b) (by omega)

/-- What every bit reads as after a run of bit writes: the run's bits where it wrote, as before elsewhere. -/
theorem bitRead_putBits (bs : List Bool) : ∀ {mem : Memory} (_ : mem.wf) (p q : Nat),
    bitRead (putBits mem p bs) q = if p ≤ q ∧ q < p + bs.length then bs.getD (q - p) false else bitRead mem q := by
  induction bs with
  | nil => intro mem _ p q; rw [if_neg (by simp)]; rfl
  | cons b bs ih =>
    intro mem h p q
    rw [putBits, ih (bitWrite_wf h p b), bitRead_bitWrite h]
    simp only [List.length_cons]
    by_cases hq : q = p
    · subst hq; rw [if_neg (by omega), if_pos rfl, if_pos (by omega)]; simp
    · by_cases hin : p + 1 ≤ q ∧ q < p + 1 + bs.length
      · rw [if_pos hin, if_pos (by omega)]
        obtain ⟨d, rfl⟩ : ∃ d, q = p + 1 + d := ⟨q - (p + 1), by omega⟩
        rw [show p + 1 + d - (p + 1) = d by omega, show p + 1 + d - p = d + 1 by omega]
        simp
      · rw [if_neg hin, if_neg hq, if_neg (by omega)]

/-- A run of bit writes is one run after another. -/
theorem putBits_append (xs ys : List Bool) : ∀ (mem : Memory) (p : Nat),
    putBits mem p (xs ++ ys) = putBits (putBits mem p xs) (p + xs.length) ys := by
  induction xs with
  | nil => intro mem p; rfl
  | cons b xs ih => intro mem p; simp only [List.cons_append, putBits, ih, List.length_cons]; congr 1; omega

@[simp] theorem bitsOf_length (n v : Nat) : (bitsOf n v).length = n := by simp [bitsOf]

/-- Bit `k` of the run that an `n`-bit value makes is `v[n-1-k]` (00_scope.md R7). -/
theorem bitsOf_getD (n v k : Nat) (h : k < n) : (bitsOf n v).getD k false = v.testBit (n - 1 - k) := by
  simp [bitsOf, List.getD, h]

theorem memRead_lt (mem : Memory) (p n : Nat) : memRead mem p n < 2 ^ n := by
  induction n with
  | zero => simp [memRead]
  | succ n ih =>
    have : (bitRead mem (p + n)).toNat ≤ 1 := by cases bitRead mem (p + n) <;> simp
    simp only [memRead, pow_succ]; omega

/-- Bit `k` of a value read is the bit at position `p + n - 1 - k` (20_memory.md R44). -/
theorem memRead_testBit (mem : Memory) (p n : Nat) : ∀ k,
    (memRead mem p n).testBit k = (decide (k < n) && bitRead mem (p + n - 1 - k)) := by
  induction n with
  | zero => intro k; simp [memRead]
  | succ n ih =>
    intro k
    cases k with
    | zero =>
      rw [memRead, Nat.testBit_zero]
      cases h : bitRead mem (p + n)
      · simp [h]
      · simp [h]
    | succ k =>
      have h2 : (2 * memRead mem p n + (bitRead mem (p + n)).toNat) / 2 = memRead mem p n := by
        cases bitRead mem (p + n)
        · simp
        · simp; omega
      rw [memRead, Nat.testBit_succ, h2, ih]
      rw [show p + (n + 1) - 1 - (k + 1) = p + n - 1 - k by omega]
      simp

/-- Two stores with the same bits in a span give the same value. -/
theorem memRead_congr {mem mem' : Memory} {p n : Nat} (h : ∀ q, p ≤ q → q < p + n → bitRead mem q = bitRead mem' q) :
    memRead mem p n = memRead mem' p n := by
  induction n with
  | zero => rfl
  | succ n ih =>
    rw [memRead, memRead, ih (fun q h1 h2 => h q h1 (by omega)), h (p + n) (by omega) (by omega)]

end Sys2Proof.Machine
end

