-- ==== Sys2Proof/Laws/State.lean ====
section
/-! SUPPORT. One lemma per field per update of State, true by rfl, so that no later proof unfolds a record update; and
the contexts and registers read back after an update. -/

namespace Sys2Proof.Machine

variable (s : State) (m : Nat) (c : Ctx) (r : Response) (id : CfgId) (g : ConfigReg) (a : App) (w : Word)

@[simp] theorem State.respond_params : (s.respond r).params = s.params := rfl
@[simp] theorem State.respond_config : (s.respond r).config = s.config := rfl
@[simp] theorem State.respond_ctxs : (s.respond r).ctxs = s.ctxs := rfl
@[simp] theorem State.respond_app : (s.respond r).app = s.app := rfl
@[simp] theorem State.respond_commands : (s.respond r).commands = s.commands := rfl
@[simp] theorem State.respond_responses : (s.respond r).responses = s.responses ++ [r.word] := rfl
@[simp] theorem State.respond_draws : (s.respond r).draws = s.draws := rfl

@[simp] theorem State.setCtx_params : (s.setCtx m c).params = s.params := rfl
@[simp] theorem State.setCtx_config : (s.setCtx m c).config = s.config := rfl
@[simp] theorem State.setCtx_ctxs : (s.setCtx m c).ctxs = s.ctxs.set m c := rfl
@[simp] theorem State.setCtx_app : (s.setCtx m c).app = s.app := rfl
@[simp] theorem State.setCtx_commands : (s.setCtx m c).commands = s.commands := rfl
@[simp] theorem State.setCtx_responses : (s.setCtx m c).responses = s.responses := rfl
@[simp] theorem State.setCtx_draws : (s.setCtx m c).draws = s.draws := rfl

@[simp] theorem State.setCfg_params : (s.setCfg id g).params = s.params := rfl
@[simp] theorem State.setCfg_ctxs : (s.setCfg id g).ctxs = s.ctxs := rfl
@[simp] theorem State.setCfg_app : (s.setCfg id g).app = s.app := rfl
@[simp] theorem State.setCfg_commands : (s.setCfg id g).commands = s.commands := rfl
@[simp] theorem State.setCfg_responses : (s.setCfg id g).responses = s.responses := rfl
@[simp] theorem State.setCfg_draws : (s.setCfg id g).draws = s.draws := rfl
@[simp] theorem State.setCfg_eccMethod :
    (s.setCfg .eccMethod g).config = { s.config with eccMethod := g } := rfl
@[simp] theorem State.setCfg_modemId :
    (s.setCfg .modemId g).config = { s.config with modemId := g } := rfl
@[simp] theorem State.setCfg_stationary :
    (s.setCfg .stationary g).config = { s.config with stationary := g } := rfl

@[simp] theorem State.setApp_params : (s.setApp a).params = s.params := rfl
@[simp] theorem State.setApp_config : (s.setApp a).config = s.config := rfl
@[simp] theorem State.setApp_ctxs : (s.setApp a).ctxs = s.ctxs := rfl
@[simp] theorem State.setApp_app : (s.setApp a).app = a := rfl
@[simp] theorem State.setApp_commands : (s.setApp a).commands = s.commands := rfl
@[simp] theorem State.setApp_responses : (s.setApp a).responses = s.responses := rfl
@[simp] theorem State.setApp_draws : (s.setApp a).draws = s.draws := rfl

@[simp] theorem State.bumpDraws_params : s.bumpDraws.params = s.params := rfl
@[simp] theorem State.bumpDraws_config : s.bumpDraws.config = s.config := rfl
@[simp] theorem State.bumpDraws_ctxs : s.bumpDraws.ctxs = s.ctxs := rfl
@[simp] theorem State.bumpDraws_app : s.bumpDraws.app = s.app := rfl
@[simp] theorem State.bumpDraws_commands : s.bumpDraws.commands = s.commands := rfl
@[simp] theorem State.bumpDraws_responses : s.bumpDraws.responses = s.responses := rfl
@[simp] theorem State.bumpDraws_draws : s.bumpDraws.draws = s.draws + 1 := rfl

@[simp] theorem State.takeCommand_params : s.takeCommand.params = s.params := rfl
@[simp] theorem State.takeCommand_config : s.takeCommand.config = s.config := rfl
@[simp] theorem State.takeCommand_ctxs : s.takeCommand.ctxs = s.ctxs := rfl
@[simp] theorem State.takeCommand_app : s.takeCommand.app = s.app := rfl
@[simp] theorem State.takeCommand_commands : s.takeCommand.commands = s.commands.tail := rfl
@[simp] theorem State.takeCommand_responses : s.takeCommand.responses = s.responses := rfl
@[simp] theorem State.takeCommand_draws : s.takeCommand.draws = s.draws := rfl

@[simp] theorem State.offer_params : (s.offer w).params = s.params := rfl
@[simp] theorem State.offer_config : (s.offer w).config = s.config := rfl
@[simp] theorem State.offer_ctxs : (s.offer w).ctxs = s.ctxs := rfl
@[simp] theorem State.offer_app : (s.offer w).app = s.app := rfl
@[simp] theorem State.offer_commands : (s.offer w).commands = w :: s.commands := rfl
@[simp] theorem State.offer_responses : (s.offer w).responses = s.responses := rfl
@[simp] theorem State.offer_draws : (s.offer w).draws = s.draws := rfl

@[simp] theorem State.offer_takeCommand : (s.offer w).takeCommand = s := rfl

/-- A register set reads back; the other two are as before. -/
theorem State.cfg_setCfg (id id' : CfgId) : (s.setCfg id g).cfg id' = if id' = id then g else s.cfg id' := by
  cases id <;> cases id' <;> rfl

@[simp] theorem State.cfg_respond : (s.respond r).cfg id = s.cfg id := by cases id <;> rfl
@[simp] theorem State.cfg_setCtx : (s.setCtx m c).cfg id = s.cfg id := by cases id <;> rfl
@[simp] theorem State.nMsg_respond : (s.respond r).nMsg = s.nMsg := rfl
@[simp] theorem State.nMsg_setCtx : (s.setCtx m c).nMsg = s.nMsg := by simp [State.nMsg]

/-- The context set reads back; every other context is as before. -/
theorem State.getElem?_setCtx (m' : Nat) :
    (s.setCtx m c).ctxs[m']? = if m' = m ∧ m < s.ctxs.length then some c else if m' = m then none else s.ctxs[m']? := by
  rw [State.setCtx_ctxs, List.getElem?_set]
  by_cases h : m = m'
  · subst h; by_cases hl : m < s.ctxs.length <;> simp [hl]
  · simp [h, Ne.symm h]

end Sys2Proof.Machine
end

