-- ==== Sys2Proof/Laws/Ops.lean ====
section
/-! SUPPORT. For each shared operation, once, everything it can do: cite these instead of unfolding the operation. -/

namespace Sys2Proof.Machine

variable {s t : State} {m : Nat}

@[simp] theorem answer_eq_next (s : State) (r : Response) : answer s r = .next (s.respond r) := rfl

@[simp] theorem failWith_eq_next (s : State) (cause : Cause) :
    failWith s cause = .next (s.respond (.failed cause)) := rfl

/-- A bad handle answers ILLEGAL, and nothing else happens. -/
theorem withCtx_of_none {f : Ctx → Host.Outcome State Fault Refusal} (h : s.ctxs[m]? = none) :
    withCtx m s f = .next (s.respond (.failed .illegal)) := by simp [withCtx, h]

/-- A good handle runs the command on its context. -/
theorem withCtx_of_some {f : Ctx → Host.Outcome State Fault Refusal} {c : Ctx} (h : s.ctxs[m]? = some c) :
    withCtx m s f = f c := by simp [withCtx, h]

/-- A handle is bad exactly where it is at or above `N_MSG`. -/
theorem ctxs_none_iff : s.ctxs[m]? = none ↔ s.nMsg ≤ m := List.getElem?_eq_none_iff

/-- Everything a command on a context can do, where it answers a next state. -/
theorem withCtx_next {f : Ctx → Host.Outcome State Fault Refusal} (h : withCtx m s f = .next t) :
    (s.ctxs[m]? = none ∧ t = s.respond (.failed .illegal)) ∨ ∃ c, s.ctxs[m]? = some c ∧ f c = .next t := by
  unfold withCtx at h
  split at h
  · next hc => exact .inl ⟨hc, by simpa using h.symm⟩
  · next c hc => exact .inr ⟨c, hc, h⟩

/-- An append that does not fit does nothing. -/
theorem Ctx.append_eq_none {capBits : Nat} {c : Ctx} {bs : List Bool} :
    c.append capBits bs = none ↔ capBits < c.bitCount + bs.length := by
  unfold Ctx.append; split <;> simp <;> omega

/-- An append that fits writes its bits at the cursor and moves the cursor. -/
theorem Ctx.append_eq_some {capBits : Nat} {c c' : Ctx} {bs : List Bool} :
    c.append capBits bs = some c' ↔ c.bitCount + bs.length ≤ capBits ∧
      c' = { c with buf := putBits c.buf c.bitCount bs, bitCount := c.bitCount + bs.length } := by
  unfold Ctx.append
  split
  · next h => simp; omega
  · next h => simp only [Option.some.injEq]; constructor
              · rintro rfl; exact ⟨by omega, rfl⟩
              · rintro ⟨-, rfl⟩; rfl

/-- An append of a run is the appends of its parts, one after another (the repeated AddBit of 40_append_ops.md R81). -/
theorem Ctx.append_append (capBits : Nat) (c : Ctx) (xs ys : List Bool) :
    c.append capBits (xs ++ ys) = (c.append capBits xs).bind fun c' => c'.append capBits ys := by
  simp only [Ctx.append, List.length_append]
  by_cases hx : c.bitCount + xs.length > capBits
  · rw [if_pos hx, if_pos (by omega)]; rfl
  · rw [if_neg hx]
    simp only [Option.bind_some]
    by_cases hy : c.bitCount + xs.length + ys.length > capBits
    · rw [if_pos hy, if_pos (by omega)]
    · rw [if_neg hy, if_neg (by omega), putBits_append, Nat.add_assoc]

/-- The bound check of an extraction, by cases (41_extract_ops.md R95). -/
theorem extractBound_cases (capBits bitCount pos n : Nat) :
    (pos + n ≤ bitCount ∧ extractBound capBits bitCount pos n = none)
      ∨ (bitCount < pos + n ∧ capBits < pos + n ∧ extractBound capBits bitCount pos n = some .capacity)
      ∨ (bitCount < pos + n ∧ pos + n ≤ capBits ∧ extractBound capBits bitCount pos n = some .bounds) := by
  unfold extractBound
  split
  · next h => exact .inl ⟨h, rfl⟩
  · next h =>
    split
    · next h' => exact .inr (.inl ⟨by omega, h', rfl⟩)
    · next h' => exact .inr (.inr ⟨by omega, by omega, rfl⟩)

/-- Everything an extraction can do, where it answers a next state: it changes nothing but the responses. -/
theorem extract_next {c : Ctx} {pos n : Nat} {k : Nat → Response} (h : extract c s pos n k = .next t) :
    (pos + n ≤ c.bitCount ∧ pos + n ≤ s.params.capBits ∧ t = s.respond (k (memRead c.buf pos n)))
      ∨ (c.bitCount < pos + n ∧ s.params.capBits < pos + n ∧ t = s.respond (extractFailed .capacity pos))
      ∨ (c.bitCount < pos + n ∧ pos + n ≤ s.params.capBits ∧ t = s.respond (extractFailed .bounds pos)) := by
  unfold extract at h
  rcases extractBound_cases s.params.capBits c.bitCount pos n with ⟨h1, h2⟩ | ⟨h1, h2, h3⟩ | ⟨h1, h2, h3⟩
  · simp only [h2] at h
    split at h
    · cases h
    · next hn => exact .inl ⟨h1, by omega, by simpa using h.symm⟩
  · simp only [h3] at h; exact .inr (.inl ⟨h1, h2, by simpa using h.symm⟩)
  · simp only [h3] at h; exact .inr (.inr ⟨h1, h2, by simpa using h.symm⟩)

/-- An extraction within the valid range succeeds. -/
theorem extract_ok {c : Ctx} {pos n : Nat} (k : Nat → Response) (h : pos + n ≤ c.bitCount)
    (hcap : c.bitCount ≤ s.params.capBits) :
    extract c s pos n k = .next (s.respond (k (memRead c.buf pos n))) := by
  simp [extract, extractBound, h, show ¬ (s.params.capBits < pos + n) by omega]

/-- A read of `ECC_METHOD`, by cases. -/
theorem withKind_next {k : Kind → Host.Outcome State Fault Refusal} (h : withKind s k = .next t) :
    (s.config.eccMethod.registered = false ∧ t = s.respond (.failed .registration))
      ∨ ∃ kind, s.config.eccMethod.registered = true ∧ kindOf s.config.eccMethod.value = some kind ∧ k kind = .next t := by
  unfold withKind at h
  split at h
  · next hr =>
    split at h
    · next kind hk => exact .inr ⟨kind, hr, hk, h⟩
    · cases h
  · next hr => exact .inl ⟨by simpa using hr, by simpa using h.symm⟩

/-- The kind read is the one whose number `ECC_METHOD` holds (10_state.md R15). -/
@[simp] theorem kindOf_kindCode (kind : Kind) : kindOf (kindCode kind) = some kind := by cases kind <;> rfl

theorem kindCode_of_kindOf {v : Byte} {kind : Kind} (h : kindOf v = some kind) : v = kindCode kind := by
  unfold kindOf at h
  split at h <;> first | (cases h; rfl) | cases h

/-- Every legal value of `ECC_METHOD` selects a kind (43_integrity_ops.md R120). -/
theorem kindOf_of_legal {v : Byte} (h : v.toNat ≤ 5) : ∃ kind, kindOf v = some kind := by
  have key : ∀ n : Fin 6, (kindOf (BitVec.ofNat 8 n.val)).isSome := by decide
  have := key ⟨v.toNat, by omega⟩
  rw [show BitVec.ofNat 8 v.toNat = v by simp] at this
  exact Option.isSome_iff_exists.1 this

/-- A read of a registered `ECC_METHOD` that holds a kind's number gives that kind. -/
theorem withKind_of_registered {kind : Kind} (k : Kind → Host.Outcome State Fault Refusal)
    (hr : s.config.eccMethod.registered = true) (hv : s.config.eccMethod.value = kindCode kind) :
    withKind s k = k kind := by simp [withKind, hr, hv]

theorem withKind_of_unregistered (k : Kind → Host.Outcome State Fault Refusal)
    (hr : s.config.eccMethod.registered = false) :
    withKind s k = .next (s.respond (.failed .registration)) := by simp [withKind, hr]

end Sys2Proof.Machine
end

