-- ==== Sys2Proof/Laws/Frame.lean ====
section
/-! SUPPORT. What the shared operations of the frame, integrity and configuration commands can do, and that every context
they make keeps the invariant of 10_state.md R27. -/

namespace Sys2Proof.Machine

variable {s : State} {p : Params} {c c' : Ctx} {kind : Kind}

/-! ## Contexts keep their invariant -/

theorem resetCtx_wf (p : Params) : resetCtx.wf p :=
  ⟨Nat.le_refl _, Nat.zero_le _, ⟨List.Pairwise.nil, by simp [resetCtx]⟩, by simp [Memory.below, resetCtx]⟩

/-- Every store of the reset state is in canonical form, for all parameters and numbers of contexts. -/
theorem resetOf_stores_wf (p : Params) (n : Nat) :
    (State.resetOf p n).app.data.wf ∧ ∀ c ∈ (State.resetOf p n).ctxs, c.buf.wf := by
  have hempty : Memory.wf [] := ⟨List.Pairwise.nil, by simp⟩
  refine ⟨hempty, fun c hc => ?_⟩
  obtain rfl := List.eq_of_mem_replicate hc
  exact hempty

theorem snapshotCtx_wf (s : State) (p : Params) : (snapshotCtx s).wf p := resetCtx_wf p

/-- An append that succeeds keeps the invariant of its context. -/
theorem Ctx.append_wf {bs : List Bool} (h : c.wf p) (ha : c.append p.capBits bs = some c') : c'.wf p := by
  obtain ⟨hroom, rfl⟩ := Ctx.append_eq_some.1 ha
  obtain ⟨hlen, -, hform, hbelow⟩ := h
  exact ⟨by simp; omega, hroom, putBits_wf hform _ _,
    putBits_below _ hbelow (by unfold Params.capBits at hroom; omega)⟩

/-- A free context lies within the invariant (42_frame_ops.md R108), whatever the free values are. -/
theorem drawnCtx_wf (p : Params) (n : Nat) : (drawnCtx p n).wf p := by
  refine ⟨?_, ?_, Memory.tabulate_wf _ _ _, fun c hc => ?_⟩
  · exact Nat.lt_succ_iff.1 (Nat.mod_lt _ (by omega))
  · exact Nat.lt_succ_iff.1 (Nat.mod_lt _ (by omega))
  · have := Memory.tabulate_lower _ _ _ c hc; omega

@[simp] theorem drawnCtx_preambleReceived (p : Params) (n : Nat) : (drawnCtx p n).preambleReceived = false := rfl
@[simp] theorem drawnCtx_fullyReceived (p : Params) (n : Nat) : (drawnCtx p n).fullyReceived = false := rfl

/-! ## The trailer -/

/-- A trailer does not go in exactly where it does not fit (43_integrity_ops.md R130). -/
theorem addTrailer_eq_none : addTrailer p kind c = none ↔ p.capBits < c.bitCount + trailerWidth kind := by
  simp [addTrailer, Ctx.append_eq_none]

/-- A trailer that fits is the code at the cursor; the cursor and the final length grow by its width. -/
theorem addTrailer_eq_some : addTrailer p kind c = some c' ↔ c.bitCount + trailerWidth kind ≤ p.capBits ∧
    c' = { c with
      buf := memWrite c.buf c.bitCount (trailerWidth kind) (code kind p.crcTailShifts c.buf c.bitCount)
      bitCount := c.bitCount + trailerWidth kind
      finalLength := c.finalLength + trailerWidth kind } := by
  simp only [addTrailer, Option.map_eq_some_iff, Ctx.append_eq_some, bitsOf_length]
  constructor
  · rintro ⟨d, ⟨hroom, rfl⟩, rfl⟩; exact ⟨hroom, rfl⟩
  · rintro ⟨hroom, rfl⟩; exact ⟨_, ⟨hroom, rfl⟩, rfl⟩

theorem addTrailer_wf (h : c.wf p) (ha : addTrailer p kind c = some c') : c'.wf p := by
  unfold addTrailer at ha
  obtain ⟨d, hd, rfl⟩ := Option.map_eq_some_iff.1 ha
  have hwf := Ctx.append_wf h hd
  obtain ⟨-, rfl⟩ := Ctx.append_eq_some.1 hd
  exact ⟨by have := h.1; simp; omega, hwf.2⟩

/-! ## The frame -/

/-- The bits of a frame before its trailer (30_encoding.md R70). -/
def frameBody (s : State) : List Bool := (if isEvaluation s then [] else s.params.preamble) ++ s.app.payload

@[simp] theorem App.payload_length (a : App) : a.payload.length = a.lengthBits := by simp [App.payload]

theorem frameBody_length (s : State) :
    (frameBody s).length = (if isEvaluation s then 0 else s.params.preamble.length) + s.app.lengthBits := by
  unfold frameBody; split <;> simp

/-- The body of a frame does not go in exactly where it does not fit. -/
theorem framePayload_eq_none : framePayload s = none ↔ s.params.capBits < (frameBody s).length := by
  simp [framePayload, frameBody, Ctx.append_eq_none, snapshotCtx, resetCtx]

/-- A body that fits stands at position 0 of a fresh context, whose cursor and final length are its length. -/
theorem framePayload_eq_some : framePayload s = some c ↔ (frameBody s).length ≤ s.params.capBits ∧
    c = { snapshotCtx s with
      buf := putBits [] 0 (frameBody s)
      bitCount := (frameBody s).length
      finalLength := (frameBody s).length } := by
  simp only [framePayload, Option.map_eq_some_iff, Ctx.append_eq_some]
  change (∃ d, (_ ∧ d = _) ∧ _) ↔ _
  simp only [snapshotCtx, resetCtx, Nat.zero_add]
  constructor
  · rintro ⟨d, ⟨hroom, rfl⟩, rfl⟩; exact ⟨hroom, rfl⟩
  · rintro ⟨hroom, rfl⟩; exact ⟨_, ⟨hroom, rfl⟩, rfl⟩

/-- Everything the frame of a PREPTX can come to (42_frame_ops.md R100, R108). -/
theorem buildFrame_cases (s : State) :
    (s.params.capBits < (frameBody s).length ∧ buildFrame s = .failed .capacity)
      ∨ ∃ c, framePayload s = some c ∧
        ((isEvaluation s = true ∧ buildFrame s = .built { c with fullyReceived := true })
          ∨ (isEvaluation s = false ∧ s.config.eccMethod.registered = false ∧ buildFrame s = .failed .registration)
          ∨ (isEvaluation s = false ∧ s.config.eccMethod.registered = true ∧ kindOf s.config.eccMethod.value = none
              ∧ buildFrame s = .stuck)
          ∨ ∃ kind, isEvaluation s = false ∧ s.config.eccMethod.registered = true
              ∧ s.config.eccMethod.value = kindCode kind
              ∧ ((addTrailer s.params kind c = none ∧ buildFrame s = .failed .capacity)
                ∨ ∃ d, addTrailer s.params kind c = some d ∧ buildFrame s = .built { d with fullyReceived := true })) := by
  unfold buildFrame
  cases hpay : framePayload s with
  | none => exact .inl ⟨framePayload_eq_none.1 hpay, rfl⟩
  | some c =>
    refine .inr ⟨c, rfl, ?_⟩
    unfold frameTrailer
    cases heval : isEvaluation s with
    | true => exact .inl ⟨rfl, by simp⟩
    | false =>
      refine .inr ?_
      cases hreg : s.config.eccMethod.registered with
      | false => exact .inl ⟨rfl, rfl, by simp⟩
      | true =>
        refine .inr ?_
        cases hkind : kindOf s.config.eccMethod.value with
        | none => exact .inl ⟨rfl, rfl, rfl, by simp⟩
        | some kind =>
          refine .inr ⟨kind, rfl, rfl, kindCode_of_kindOf hkind, ?_⟩
          cases ht : addTrailer s.params kind c with
          | none => exact .inl ⟨rfl, by simp [ht]⟩
          | some d => exact .inr ⟨d, rfl, by simp [ht]⟩

/-- A frame that is built keeps the invariant. -/
theorem buildFrame_wf (hb : buildFrame s = .built c) : c.wf s.params := by
  have body : ∀ {d}, framePayload s = some d → d.wf s.params := fun hd => by
    unfold framePayload at hd
    obtain ⟨e, he, rfl⟩ := Option.map_eq_some_iff.1 hd
    exact ⟨Nat.le_refl _, (Ctx.append_wf (snapshotCtx_wf s _) he).2⟩
  rcases buildFrame_cases s with ⟨-, h⟩ | ⟨d, hd, ⟨-, h⟩ | ⟨-, -, h⟩ | ⟨-, -, -, h⟩ | ⟨k, -, -, -, ⟨-, h⟩ | ⟨e, he, h⟩⟩⟩
  all_goals rw [h] at hb; cases hb
  · have hd := body hd; exact hd
  · have he := addTrailer_wf (body hd) he; exact he

/-! ## What reads no context -/

/-- A register reads the same whatever the contexts hold. -/
@[simp] theorem cfg_withCtxs (s : State) (others : List Ctx) (id : CfgId) :
    ({ s with ctxs := others } : State).cfg id = s.cfg id := by cases id <;> rfl

/-- A frame is built from the configuration, the staging area and the parameters alone (42_frame_ops.md R100). -/
@[simp] theorem buildFrame_withCtxs (s : State) (others : List Ctx) :
    buildFrame { s with ctxs := others } = buildFrame s := rfl

@[simp] theorem registeredId_withCtxs (s : State) (others : List Ctx) (i : Nat) :
    registeredId { s with ctxs := others } i = registeredId s i := by
  simp only [registeredId, cfg_withCtxs]

/-! ## Register numbers -/

/-- The registers a number can name, if it is registered (44_config_ops.md R152, R153). -/
theorem registeredId_eq_some {i : Nat} {id : CfgId} :
    registeredId s i = some id ↔ cfgIdOf i = some id ∧ (s.cfg id).registered = true := by
  unfold registeredId
  cases h : cfgIdOf i with
  | none => simp
  | some id' =>
    by_cases hr : (s.cfg id').registered = true
    · simp only [hr, if_true, Option.some.injEq]
      exact ⟨by rintro rfl; exact ⟨rfl, hr⟩, fun h => h.1⟩
    · simp only [hr, if_false, Option.some.injEq, reduceCtorEq, false_iff]
      rintro ⟨rfl, h⟩; exact hr h

/-- Numbers 3 and above name no register (10_state.md R14). -/
theorem cfgIdOf_eq_none {i : Nat} (h : 3 ≤ i) : cfgIdOf i = none := by
  match i, h with
  | n + 3, _ => rfl

/-- No limit is above 255 (44_config_ops.md R152). -/
theorem cfgMax_le (p : Params) (id : CfgId) : cfgMax p id ≤ 255 := by
  cases id
  · simp [cfgMax]
  · exact Nat.le_of_lt_succ p.modemIdMax.isLt
  · simp [cfgMax]

end Sys2Proof.Machine
end

