-- ==== Sys2Proof/Laws/PerInstr.lean ====
section
/-! SUPPORT. The families of statements made per instruction (LAWS.json). -/

namespace Sys2Proof.Laws.EncodesOpcode

/-- The word of a command carries its opcode in the top byte, and the opcode is one of the 24 of 30_encoding.md R63. -/
def Statement (i : Instr) : Prop :=
  opcodeField (encode i) = opcodeOf i ∧ opcodeOf i ∈ Machine.opcodeMasks.map Prod.fst

/-- The top byte of a word put together from its four fields (30_encoding.md R60). -/
theorem opcodeField_append (op : BitVec 8) (msg : BitVec 8) (pos : BitVec 16) (data : BitVec 32) :
    opcodeField (op ++ msg ++ pos ++ data) = op := by
  ext k hk
  simp only [opcodeField, BitVec.getElem_extractLsb', BitVec.getLsbD_append]
  simp [show ¬ (56 + k < 32) by omega, show ¬ (56 + k - 32 < 16) by omega, show ¬ (56 + k - 32 - 16 < 8) by omega,
    show 56 + k - 32 - 16 - 8 = k by omega, BitVec.getLsbD_eq_getElem hk]

theorem opcodeField_encode (i : Instr) : opcodeField (encode i) = opcodeOf i := by
  rw [encode, opcodeField_append]

theorem addbit (m : Nat) (b : Bool) : Statement (.addbit m b) :=
  ⟨opcodeField_encode _, by simp [opcodeOf, Machine.opcodeMasks]⟩
theorem add8 (m : Nat) (v : BitVec 8) : Statement (.add8 m v) :=
  ⟨opcodeField_encode _, by simp [opcodeOf, Machine.opcodeMasks]⟩
theorem add16 (m : Nat) (v : BitVec 16) : Statement (.add16 m v) :=
  ⟨opcodeField_encode _, by simp [opcodeOf, Machine.opcodeMasks]⟩
theorem add32 (m : Nat) (v : BitVec 32) : Statement (.add32 m v) :=
  ⟨opcodeField_encode _, by simp [opcodeOf, Machine.opcodeMasks]⟩
theorem getbit (m : Nat) (pos : Nat) : Statement (.getbit m pos) :=
  ⟨opcodeField_encode _, by simp [opcodeOf, Machine.opcodeMasks]⟩
theorem getchunk (m : Nat) (pos : Nat) (len : Nat) : Statement (.getchunk m pos len) :=
  ⟨opcodeField_encode _, by simp [opcodeOf, Machine.opcodeMasks]⟩
theorem get8 (m : Nat) (pos : Nat) : Statement (.get8 m pos) :=
  ⟨opcodeField_encode _, by simp [opcodeOf, Machine.opcodeMasks]⟩
theorem get16 (m : Nat) (pos : Nat) : Statement (.get16 m pos) :=
  ⟨opcodeField_encode _, by simp [opcodeOf, Machine.opcodeMasks]⟩
theorem get32 (m : Nat) (pos : Nat) : Statement (.get32 m pos) :=
  ⟨opcodeField_encode _, by simp [opcodeOf, Machine.opcodeMasks]⟩
theorem preptx (m : Nat) : Statement (.preptx m) :=
  ⟨opcodeField_encode _, by simp [opcodeOf, Machine.opcodeMasks]⟩
theorem preprx (m : Nat) : Statement (.preprx m) :=
  ⟨opcodeField_encode _, by simp [opcodeOf, Machine.opcodeMasks]⟩
theorem minsize (n : Nat) : Statement (.minsize n) :=
  ⟨opcodeField_encode _, by simp [opcodeOf, Machine.opcodeMasks]⟩
theorem rxpre (m : Nat) : Statement (.rxpre m) :=
  ⟨opcodeField_encode _, by simp [opcodeOf, Machine.opcodeMasks]⟩
theorem rxseal (m : Nat) : Statement (.rxseal m) :=
  ⟨opcodeField_encode _, by simp [opcodeOf, Machine.opcodeMasks]⟩
theorem appwr (idx : Nat) (byte : BitVec 8) : Statement (.appwr idx byte) :=
  ⟨opcodeField_encode _, by simp [opcodeOf, Machine.opcodeMasks]⟩
theorem apphdr (type : BitVec 8) (len : Nat) : Statement (.apphdr type len) :=
  ⟨opcodeField_encode _, by simp [opcodeOf, Machine.opcodeMasks]⟩
theorem rdctx (m : Nat) (sel : Nat) : Statement (.rdctx m sel) :=
  ⟨opcodeField_encode _, by simp [opcodeOf, Machine.opcodeMasks]⟩
theorem addcorr (m : Nat) : Statement (.addcorr m) :=
  ⟨opcodeField_encode _, by simp [opcodeOf, Machine.opcodeMasks]⟩
theorem chkcorr (m : Nat) : Statement (.chkcorr m) :=
  ⟨opcodeField_encode _, by simp [opcodeOf, Machine.opcodeMasks]⟩
theorem chklen : Statement .chklen :=
  ⟨opcodeField_encode _, by simp [opcodeOf, Machine.opcodeMasks]⟩
theorem pktreg : Statement .pktreg :=
  ⟨opcodeField_encode _, by simp [opcodeOf, Machine.opcodeMasks]⟩
theorem eccreg : Statement .eccreg :=
  ⟨opcodeField_encode _, by simp [opcodeOf, Machine.opcodeMasks]⟩
theorem setcfg (i : Nat) (v : BitVec 32) : Statement (.setcfg i v) :=
  ⟨opcodeField_encode _, by simp [opcodeOf, Machine.opcodeMasks]⟩
theorem getcfg (i : Nat) : Statement (.getcfg i) :=
  ⟨opcodeField_encode _, by simp [opcodeOf, Machine.opcodeMasks]⟩

end Sys2Proof.Laws.EncodesOpcode
end

