-- ==== Sys2Proof/Tests/Slice0.lean ====
section
/-! SUPPORT. The author's own tests: the checks of WellFormed.lean refuse ill-formed terms, command words written out from
30_encoding.md decode to their commands, one step on small states answers what 95_test_vectors.md says, and the hypotheses
of every obligation are met by some state (the theorems named `witness_…`). -/

namespace Sys2Proof.Machine.Tests

/-! ## Small states -/

/-- Reset under REF with the contexts replaced. -/
def holding (c d : Ctx) : State := { State.reset with ctxs := [c, d] }

/-- A context with these bytes, cursor and final length, and all else as after reset. -/
def filled (bytes : List Byte) (bitCount finalLength : Nat) : Ctx :=
  { Ctx.atReset with
    buf := Memory.tabulate (fun a => bytes.getD a 0) 0 bytes.length
    bitCount := bitCount
    finalLength := finalLength }

/-- The same state with all three registers registered and `ECC_METHOD` at the number of `kind`. -/
def registeredFor (kind : Kind) (s : State) : State :=
  { s with
    config :=
      { eccMethod := { value := kindCode kind, registered := true, modified := false }
        modemId := { s.config.modemId with registered := true }
        stationary := { s.config.stationary with registered := true } } }

/-- The same state with an application message. -/
def staging (type : Byte) (lengthBits : Nat) (bytes : List Byte) (s : State) : State :=
  { s with
    app :=
      { data := Memory.tabulate (fun a => bytes.getD a 0) 0 bytes.length
        lengthBits := lengthBits
        contentType := type } }

/-- The last response word after running one command word. -/
def response (s : State) (w : Word) : Option Word :=
  match step (s.offer w) with
  | .next t => t.responses.getLast?
  | .fault _ => none
  | .refused _ => none

/-- Bytes 0 .. 4, cursor and final length of context 0 after running one command word. -/
def context (s : State) (w : Word) : Option (List Byte × Nat × Nat) :=
  match step (s.offer w) with
  | .next t => (t.ctxs[0]?).map fun c => ((List.range 5).map c.buf.read, c.bitCount, c.finalLength)
  | .fault _ => none
  | .refused _ => none

/-- The context of vectors V-A3 and V-E1 to V-E9. -/
def vA3 : State := holding (filled [0xBF, 0xF5, 0x79, 0xA0] 27 0) Ctx.atReset

/-- A full context. -/
def full : State := holding (filled [0xFF] 256 256) Ctx.atReset

/-! ## WellFormed refuses -/

theorem test_wf_handle : (Instr.preptx 256).wf = false ∧ (Instr.preptx 255).wf = true := by decide
theorem test_wf_position : (Instr.get8 0 65536).wf = false ∧ (Instr.get8 0 65535).wf = true := by decide
theorem test_wf_length : (Instr.getchunk 0 0 256).wf = false ∧ (Instr.getchunk 0 0 9).wf = true := by decide
theorem test_wf_half : (Instr.minsize 65536).wf = false ∧ (Instr.apphdr 0 65536).wf = false := by decide
theorem test_wf_selector : (Instr.rdctx 0 256).wf = false ∧ (Instr.setcfg 256 0).wf = false := by decide
theorem test_params_capacity :
    ({ Params.ref with capBytes := 0, preamble := [] } : Params).wf = false
    ∧ ({ Params.ref with capBytes := 8192 } : Params).wf = false := by decide
theorem test_params_preamble :
    ({ Params.ref with capBytes := 1, preamble := List.replicate 9 true } : Params).wf = false := by decide
theorem test_params_min_size :
    ({ Params.ref with minSizeBytes := 3 } : Params).wf = false
    ∧ ({ Params.ref with minSizeBytes := 0 } : Params).wf = false
    ∧ ({ Params.ref with minSizeBytes := 131072 } : Params).wf = false := by decide
theorem test_params_modem :
    ({ Params.ref with modemIdReset := 16 } : Params).wf = false
    ∧ ({ Params.ref with modemIdMin := 2 } : Params).wf = false := by decide

/-! ## Decoding: words written out from 30_encoding.md R60, R62, R63 -/

theorem test_decode_addbit : decode 0x010500000000FFFF = .ok (.addbit 5 true) := by decide
theorem test_decode_add8 : decode 0x0201FFFF0000AB7F = .ok (.add8 1 0x7F) := by decide
theorem test_decode_add16 : decode 0x030000001234ABCD = .ok (.add16 0 0xABCD) := by decide
theorem test_decode_add32 : decode 0x04FF000001020304 = .ok (.add32 255 0x01020304) := by decide
theorem test_decode_getbit : decode 0x0801001A00000000 = .ok (.getbit 1 26) := by decide
theorem test_decode_getchunk : decode 0x0900001400000108 = .ok (.getchunk 0 20 8) := by decide
theorem test_decode_get8 : decode 0x0A02001000000000 = .ok (.get8 2 16) := by decide
theorem test_decode_get16 : decode 0x0B00000B00000000 = .ok (.get16 0 11) := by decide
theorem test_decode_get32 : decode 0x0C00FFFF00000000 = .ok (.get32 0 65535) := by decide
theorem test_decode_preptx : decode 0x1002000000000000 = .ok (.preptx 2) := by decide
theorem test_decode_preprx : decode 0x1101000000000000 = .ok (.preprx 1) := by decide
theorem test_decode_minsize : decode 0x12FF000000018003 = .ok (.minsize 0x8003) := by decide
theorem test_decode_rxpre : decode 0x1301000000000000 = .ok (.rxpre 1) := by decide
theorem test_decode_rxseal : decode 0x1401000000000000 = .ok (.rxseal 1) := by decide
theorem test_decode_appwr : decode 0x1500001F000000EE = .ok (.appwr 31 0xEE) := by decide
theorem test_decode_apphdr : decode 0x1600AA0700000010 = .ok (.apphdr 7 16) := by decide
theorem test_decode_rdctx : decode 0x1701AA0500000000 = .ok (.rdctx 1 5) := by decide
theorem test_decode_addcorr : decode 0x2003000000000000 = .ok (.addcorr 3) := by decide
theorem test_decode_chkcorr : decode 0x2101000000000000 = .ok (.chkcorr 1) := by decide
theorem test_decode_chklen : decode 0x22FFFFFFFFFFFFFF = .ok .chklen := by decide
theorem test_decode_pktreg : decode 0x3000000000000000 = .ok .pktreg := by decide
theorem test_decode_eccreg : decode 0x3100000000000000 = .ok .eccreg := by decide
theorem test_decode_setcfg : decode 0x320001020000000F = .ok (.setcfg 2 15) := by decide
theorem test_decode_getcfg : decode 0x3300000100000000 = .ok (.getcfg 1) := by decide
theorem test_decode_illegal : decode 0x3400000000000000 = .error (.illegalOpcode 0x34) := by decide

/-- `decodeTableWord` reads the table's numbering, where bit 0 is the word's least significant bit. -/
theorem test_table_word : decodeTableWord 64 0x0801001A00000000 = some (.getbit 1 26) := by decide

/-- `withFetchWord` makes the very next step run the word. -/
theorem test_fetch_word : State.reset.withFetchWord 64 0x2200000000000000 = State.reset.offer 0x2200000000000000 := by decide

/-! ## One step: the vectors of 95_test_vectors.md -/

/-- V-A1, its last command -/
theorem test_addbit : context (holding (filled [0x80] 2 0) Ctx.atReset) 0x0100000000000001 = some ([0xA0, 0, 0, 0, 0], 3, 0) := by
  decide
/-- V-A6 and R80's first corner case: an appended 0 clears its bit -/
theorem test_addbit_clears : context (holding (filled [0xFF] 0 0) Ctx.atReset) 0x01000000FFFFFFFE = some ([0x7F, 0, 0, 0, 0], 1, 0) := by
  decide
/-- V-A2 -/
theorem test_add8 : context (holding (filled [0xA0] 3 0) Ctx.atReset) 0x02000000000000FF = some ([0xBF, 0xE0, 0, 0, 0], 11, 0) := by
  decide
/-- V-A3 -/
theorem test_add16 :
    context (holding (filled [0xBF, 0xE0] 11 0) Ctx.atReset) 0x030000000000ABCD = some ([0xBF, 0xF5, 0x79, 0xA0, 0], 27, 0) := by
  decide
/-- V-A5 -/
theorem test_add32 : context State.reset 0x0400000001020304 = some ([1, 2, 3, 4, 0], 32, 0) := by decide
/-- V-A9: one bit of room left -/
theorem test_add8_capacity : response (holding (filled [] 255 0) Ctx.atReset) 0x0200000000000000 = some 0x1000000000000000 := by
  decide
/-- V-E1, V-E4 -/
theorem test_getbit :
    response vA3 0x0800000000000000 = some 0x8000000000000001
    ∧ response vA3 0x0800001B00000000 = some 0x2000001B00000000 := by decide
/-- V-E5, V-E9, V-E10, V-E11 -/
theorem test_getchunk :
    response vA3 0x0900000000000003 = some 0x8000000300000005
    ∧ response vA3 0x0900001400000007 = some 0x8000001B0000004D
    ∧ response vA3 0x0900000000000009 = some 0x2000000000000000
    ∧ response vA3 0x0900001B00000000 = some 0x8000001B00000000 := by decide
/-- V-E6, V-E12 -/
theorem test_get8 :
    response vA3 0x0A00000300000000 = some 0x8000000B000000FF
    ∧ response full 0x0A0000FC00000000 = some 0x100000FC00000000 := by decide
/-- V-E7 -/
theorem test_get16 : response vA3 0x0B00000B00000000 = some 0x8000001B0000ABCD := by decide
/-- V-E8, V-X9 -/
theorem test_get32 :
    response vA3 0x0C00000000000000 = some 0x2000000000000000
    ∧ response vA3 0x0C00FFFF00000000 = some 0x1000FFFF00000000 := by decide
/-- V-F1 -/
theorem test_preptx :
    context (staging 1 8 [0x00] (registeredFor .crc8 State.reset)) 0x1000000000000000
      = some ([0xA5, 0x00, 0x59, 0, 0], 24, 24) := by decide +kernel
/-- V-F3: evaluation content -/
theorem test_preptx_evaluation :
    context (staging 0 12 [0xAB, 0xCD] (registeredFor .crc8 State.reset)) 0x1000000000000000
      = some ([0xAB, 0xC0, 0, 0, 0], 12, 12) := by decide
/-- V-F9 -/
theorem test_preprx : context vA3 0x1100000000000000 = some ([0, 0, 0, 0, 0], 0, 0) := by decide
/-- the table of section 2.3 -/
theorem test_minsize :
    response State.reset 0x1200000000000000 = some 0x8000000000000001
    ∧ response State.reset 0x12FF000000000003 = some 0x8000000000000004
    ∧ response State.reset 0x1200000000000021 = some 0x8000000000000040 := by decide
/-- V-F10: RXPRE sets bit 0 of FLAGS, RXSEAL bit 1 -/
theorem test_rxpre_rxseal :
    (match execAll [.rxpre 0, .rxseal 0] vA3 with
     | .next t => response t 0x1700000200000000
     | .fault _ => none
     | .refused _ => none) = some 0x8000000000000003 := by decide
/-- V-F11's command on a context with bits -/
theorem test_rxseal : context vA3 0x1400000000000000 = some ([0xBF, 0xF5, 0x79, 0xA0, 0], 27, 27) := by decide
/-- V-F6 -/
theorem test_appwr :
    response State.reset 0x1500001F000000EE = some 0x8000000000000000
    ∧ response State.reset 0x1500002000000001 = some 0x1000000000000000 := by decide
/-- V-F6 -/
theorem test_apphdr :
    response State.reset 0x1600000100000100 = some 0x8000000000000000
    ∧ response State.reset 0x1600000100000101 = some 0x1000000000000000 := by decide
/-- R107's first two selectors, V-F12 -/
theorem test_rdctx :
    response (holding (filled [] 24 16) Ctx.atReset) 0x1700000000000000 = some 0x8000000000000018
    ∧ response (holding (filled [] 24 16) Ctx.atReset) 0x1700000100000000 = some 0x8000000000000010
    ∧ response State.reset 0x1700000600000000 = some 0x6000000000000000 := by decide
/-- V-I28 with `BITS`: the code goes in at bit 27 -/
theorem test_addcorr :
    context (registeredFor .crc8 (holding (filled [0xBF, 0xF5, 0x79, 0xA0] 27 27) Ctx.atReset)) 0x2000000000000000
      = some ([0xBF, 0xF5, 0x79, 0xB0, 0xE0], 35, 35) := by decide +kernel
/-- V-I23: `final_length` grows by the width alone -/
theorem test_addcorr_by_hand :
    context (registeredFor .crc8 (holding (filled [0x00] 8 0) Ctx.atReset)) 0x2000000000000000
      = some ([0, 0, 0, 0, 0], 16, 8) := by decide
/-- R131's example: the same intact context under CRC-8 and under Checksum-8 -/
theorem test_chkcorr :
    response (registeredFor .crc8 (holding (filled [0, 0] 16 16) Ctx.atReset)) 0x2100000000000000 = some 0x8001000000000000
    ∧ response (registeredFor .checksum8 (holding (filled [0, 0] 16 16) Ctx.atReset)) 0x2100000000000000
        = some 0x8000000000000000 := by decide
/-- V-I21, V-X7 -/
theorem test_chkcorr_fails :
    response (registeredFor .crc16 (holding (filled [0] 8 8) Ctx.atReset)) 0x2100000000000000 = some 0x2000000000000000
    ∧ response State.reset 0x2100000000000000 = some 0x3000000000000000 := by decide
/-- V-I26 -/
theorem test_chklen :
    [Kind.crc8, .crc16, .crc32, .checksum8, .checksum16, .checksum32].map
        (fun k => response (registeredFor k State.reset) 0x2200000000000000)
      = [8, 16, 32, 8, 16, 32].map fun w : Word => some (0x8000000000000000 ||| w) := by decide
/-- V-C2, V-C3 -/
theorem test_pktreg :
    response State.reset 0x3000000000000000 = some 0x8000000000000000
    ∧ response (registeredFor .crc8 State.reset) 0x3000000000000000 = some 0x3000000000000000 := by decide
/-- V-C6 -/
theorem test_eccreg :
    response State.reset 0x3100000000000000 = some 0x8000000000000000
    ∧ response (registeredFor .crc8 State.reset) 0x3100000000000000 = some 0x3000000000000000 := by decide
/-- V-C5, V-C8, V-C9, V-C10, V-C13 -/
theorem test_setcfg :
    response State.reset 0x3200000000000001 = some 0x3000000000000000
    ∧ response (registeredFor .crc8 State.reset) 0x3200000000000005 = some 0x8000000000000000
    ∧ response (registeredFor .crc8 State.reset) 0x3200000000000006 = some 0x4000000000000000
    ∧ response (registeredFor .crc8 State.reset) 0x3200000000000100 = some 0x4000000000000000
    ∧ response (registeredFor .crc8 State.reset) 0x3200000300000000 = some 0x3000000000000000 := by decide
/-- V-C8: the value and the modified flag after an effective SETCFG; V-C7: a no-op leaves the flag -/
theorem test_setcfg_modified :
    (match exec (.setcfg 0 5) (registeredFor .crc8 State.reset), exec (.setcfg 0 0) (registeredFor .crc8 State.reset) with
     | .next t, .next u => some (t.config.eccMethod, u.config.eccMethod)
     | _, _ => none)
      = some ({ value := 5, registered := true, modified := true }, { value := 0, registered := true, modified := false }) := by
  decide
/-- V-C1, V-C4 -/
theorem test_getcfg :
    response State.reset 0x3300000100000000 = some 0x3000000000000000
    ∧ response (registeredFor .crc8 State.reset) 0x3300000100000000 = some 0x8000000000000001 := by decide
/-- V-X1, V-X4, V-X6, V-X8 -/
theorem test_illegal :
    response State.reset 0x0000000000000000 = some 0x6000000000000000
    ∧ response State.reset 0x0102000000000001 = some 0x6000000000000000
    ∧ response State.reset 0x0A02001000000000 = some 0x6000000000000000
    ∧ response State.reset 0x0900FFFF00000009 = some 0x2000FFFF00000000 := by decide

/-! ## Codes: the vectors of section 2.4 -/

/-- The six codes of a buffer, in the order of R120. -/
def codes (tail : TailShifts) (bytes : List Byte) (n : Nat) : List Nat :=
  [Kind.crc8, .crc16, .crc32, .checksum8, .checksum16, .checksum32].map
    fun k => code k tail (Memory.tabulate (fun a => bytes.getD a 0) 0 bytes.length) n

/-- V-I1 -/
theorem test_codes_empty : codes .bits [] 0 = [0x00, 0xFFFF, 0x00000000, 0x00, 0x0000, 0x00000000] := by decide
/-- V-I6 -/
theorem test_codes_bytes :
    codes .bits [0xA5, 0x01, 0x02, 0x03, 0x04] 40 = [0xFD, 0x153C, 0x61D44DC8, 0xAF, 0xAB04, 0xA9010203] := by decide +kernel
/-- V-I17 with `BITS` -/
theorem test_codes_tail_bits :
    codes .bits [0xBF, 0xF5, 0x79, 0xA0] 27 = [0x87, 0xBE65, 0x7266572E, 0xCD, 0x3995, 0xBFF579A0] := by decide +kernel
/-- V-I15 with `BYTE` (bits 12 to 15 are not covered) -/
theorem test_codes_tail_byte :
    codes .byte [0xAB, 0xCF] 12 = [0xC1, 0x05C7, 0xF84EF924, 0x6B, 0xABC0, 0xABC00000] := by decide +kernel

/-! ## The hypotheses of the obligations are met (every clause, at the edges of its range) -/

/-- Two contexts, one full and one empty, all registers registered, and a framed message that fills the buffer exactly
with a CRC-8 trailer: 8 + 240 + 8 = 256 bits. -/
def ready : State := staging 1 240 [0x48] (registeredFor .crc8 full)

/-- `ready` with two commands offered. -/
def offered : State := (ready.offer 0x0100000000000001).offer 0x0500000000000000

theorem witness_invariant : State.reset.inv ∧ ready.inv := by decide
theorem witness_invariant_cursor : full.inv ∧ vA3.inv := by decide

/-- DecodeOfEncodeIsTheCommand: operands at their largest -/
theorem witness_wf : (Instr.getchunk 255 65535 255).wf = true ∧ (Instr.apphdr 0xFF 65535).wf = true := by decide

/-- EncodeOfDecodeKeepsTheNamedBits, IgnoredBitsChangeNothing: two different words, alike in the bits of CHKLEN -/
theorem witness_ignored_bits :
    decode 0x22000000000000FF = .ok .chklen ∧ (opcodeField 0x22000000000000FF, 0xFF00000000000000) ∈ opcodeMasks
    ∧ (0x22000000000000FF : Word) &&& 0xFF00000000000000 = (0x22FF000000000000 : Word) &&& 0xFF00000000000000
    ∧ (0x22000000000000FF : Word) ≠ 0x22FF000000000000 := by decide

/-- OpcodeSelectsTheCommandAndItsOperands: each of the 24 opcodes is some word's top byte -/
theorem witness_opcodes :
    (opcodeMasks.map fun row => ((row.1 ++ 0#56 : Word).extractLsb 63 56)) = opcodeMasks.map Prod.fst := by decide

/-- StepRunsTheDecodedCommand: an offered command, and an empty port -/
theorem witness_step :
    (ready.offer 0x2200000000000000).commands = 0x2200000000000000 :: [] ∧ decode 0x2200000000000000 = .ok .chklen
    ∧ ready.commands = [] := by decide

/-- IllegalEncodingsFail: an undefined opcode, the first bad handle, the first bad selector -/
theorem witness_illegal :
    (State.reset.offer 0x3400000000000000).commands = 0x3400000000000000 :: []
    ∧ (0x3400000000000000 : Word).extractLsb 63 56 ∉ opcodeMasks.map Prod.fst
    ∧ handleOf (.get8 2 0) = some 2 ∧ State.reset.nMsg ≤ 2 ∧ 5 < 6 := by decide

/-- The statements about every `exec i s = .next t`, with a success, a failure, a flag and an extraction -/
theorem witness_next :
    Outcome.isNext (exec (.add8 1 7) ready) = true ∧ Outcome.isNext (exec (.add8 0 7) ready) = true
    ∧ Outcome.isNext (exec (.get8 0 0) ready) = true ∧ Outcome.isNext (exec .chklen ready) = true
    ∧ readsOnly .chklen = true := by decide

/-- ResponsesHaveTheFormOfTheirCommand, FailedCommandsChangeNothing: the flag set, and a failure's bit 63 -/
theorem witness_responses :
    response (registeredFor .crc8 (holding (filled [0, 0] 16 16) Ctx.atReset)) 0x2100000000000000
      = some (okWord true 0 0)
    ∧ response ready 0x0200000000000007 = some (failWord .capacity 0) ∧ (failWord .capacity 0).getLsbD 63 = false := by
  decide +kernel

/-- StepKeepsTheInvariant, NoStepStopsTheMachine, RunsAnswerEveryCommand: two commands offered, of which the first is taken
first; every k from 0 to 2, with a word for 0 and 1 and none for 2 -/
theorem witness_run :
    offered.inv ∧ 0 ≤ offered.commands.length ∧ 2 ≤ offered.commands.length
    ∧ offered.commands[0]? = some 0x0500000000000000 ∧ offered.commands[1]? = some 0x0100000000000001
    ∧ offered.commands[2]? = none
    ∧ (match step offered with
       | .next t => (t.commands, t.responses)
       | .fault _ => ([], [])
       | .refused _ => ([], [])) = ([0x0100000000000001], [failWord .illegal 0]) := by decide

/-- ResetMeetsTheInvariant: parameters at their limits, one context and 256 -/
theorem witness_params :
    Params.ref.wf = true ∧ ({ Params.ref with capBytes := 8191, minSizeBytes := 65536 } : Params).wf = true
    ∧ 1 ≤ 256 ∧ 256 ≤ 256 := by decide

/-- BitWriteChangesOneBit, MemWriteReadsBack, TwoByteFormOfAChunk: a store, the largest value, both forms of a chunk -/
theorem witness_bits :
    Memory.wf [(0, 0xA5), (3, 0x01)] ∧ 2 ^ 8 - 1 < 2 ^ 8 ∧ 0 % 8 + 8 ≤ 8 ∧ 8 < 1 % 8 + 8 ∧ 8 < 7 % 8 + 2 := by decide

/-- AddbitAppendsItsBit, AddsAppendTheirValueMsbFirst, WideAppendsAreRepeatedAddbits, AlignedAppendsStoreBigEndianBytes,
AppendThenExtractRoundTrip: exactly room for 32 bits, and no room for one -/
theorem witness_appends :
    (holding (filled [] 224 0) Ctx.atReset).inv ∧ (holding (filled [] 224 0) Ctx.atReset).ctxs[0]? = some (filled [] 224 0)
    ∧ 224 + 32 ≤ Params.ref.capBits ∧ 224 % 8 = 0
    ∧ full.inv ∧ full.ctxs[0]? = some (filled [0xFF] 256 256) ∧ Params.ref.capBits < 256 + 1 := by decide

/-- GetbitReadsItsBit, GetchunkReadsUpToEightBits, GetsReadWholeValues: the last span inside, the first outside
`bit_count`, the first outside the buffer; a length of 8 and one of 9 -/
theorem witness_extracts :
    vA3.inv ∧ vA3.ctxs[0]? = some (filled [0xBF, 0xF5, 0x79, 0xA0] 27 0) ∧ 19 + 8 ≤ 27
    ∧ (27 < 20 + 8 ∧ 20 + 8 ≤ vA3.params.capBits) ∧ (27 < 249 + 8 ∧ vA3.params.capBits < 249 + 8)
    ∧ 8 ≤ 8 ∧ 8 < 9 ∧ 1 < vA3.nMsg := by decide

/-- MinsizeAnswersTheLeastPowerOfTwo, MinimumSizeLaws, PreprxResetsItsContext, RxpreSetsThePreambleFlag,
RxsealRecordsTheLength, RdctxReadsTheSelectedField: the largest argument, two ordered ones, the last context, a context and
the first bad selector -/
theorem witness_frame_commands :
    ready.inv ∧ 65535 < 65536 ∧ 1 ≤ ready.params.minSizeBytes ∧ 3 ≤ 4 ∧ 1 < ready.nMsg
    ∧ ready.ctxs[1]? = some Ctx.atReset ∧ 5 < 6 := by decide

/-- AppwrStoresOneByte, ApphdrDeclaresTheMessage: the last index and length accepted, the first ones refused -/
theorem witness_staging :
    State.reset.inv ∧ 31 < State.reset.params.capBytes ∧ State.reset.params.capBytes ≤ 32
    ∧ 256 ≤ State.reset.params.capBits ∧ State.reset.params.capBits < 257 := by decide

/-- PreptxBuildsTheFrame: a frame that fills the buffer exactly -/
theorem witness_preptx :
    ready.inv ∧ 0 < ready.nMsg ∧ ready.config.modemId.registered = true ∧ ready.config.stationary.registered = true
    ∧ ready.config.eccMethod.registered = true ∧ ready.config.eccMethod.value = kindCode .crc8
    ∧ ready.app.contentType ≠ ready.params.evalType
    ∧ ready.params.preamble.length + ready.app.lengthBits + trailerWidth .crc8 ≤ ready.params.capBits := by decide

/-- PreptxBuildsTheEvaluationFrame: a payload as long as the buffer -/
theorem witness_preptx_evaluation :
    (staging 0 256 [0x48] ready).inv ∧ 0 < ready.nMsg ∧ ready.config.modemId.registered = true
    ∧ ready.config.stationary.registered = true
    ∧ (staging 0 256 [0x48] ready).app.contentType = ready.params.evalType := by decide

/-- PreptxFailsAsTheRuleSays: nothing registered; a body one bit too long -/
theorem witness_preptx_fails_body :
    State.reset.inv ∧ State.reset.config.modemId.registered = false
    ∧ (staging 1 249 [] ready).inv ∧ ready.params.capBits < 8 + 249 := by decide

/-- PreptxFailsAsTheRuleSays: `ECC_METHOD` alone unregistered with a body that fills the buffer; a trailer one bit too
long -/
theorem witness_preptx_fails_trailer :
    (staging 1 248 [] { ready with config := { ready.config with eccMethod := .atReset 0 } }).inv
    ∧ 8 + 248 ≤ ready.params.capBits ∧ (ConfigReg.atReset 0).registered = false
    ∧ (staging 1 241 [] ready).inv ∧ ready.params.capBits < 8 + 241 + trailerWidth .crc8 := by decide

/-- CodeDependsOnCoveredBitsOnly: two buffers with the same first 12 bits -/
theorem witness_covered : ∀ q < 12, bitRead [(0, 0xAB), (1, 0xCD)] q = bitRead [(0, 0xAB), (1, 0xCF)] q := by decide

/-- CrcsPadWithZerosUnderByte: `AB CF` padded after bit 12 is `AB C0` -/
theorem witness_padded :
    Kind.crc16 ∈ [Kind.crc8, Kind.crc16, Kind.crc32]
    ∧ (∀ q < 12, bitRead [(0, 0xAB), (1, 0xC0)] q = bitRead [(0, 0xAB), (1, 0xCF)] q)
    ∧ ∀ q < 8 * ((12 + 7) / 8), 12 ≤ q → bitRead [(0, 0xAB), (1, 0xC0)] q = false := by decide

/-- AddcorrAppendsTheCode: unregistered; exactly room; one bit short -/
theorem witness_addcorr :
    State.reset.inv ∧ State.reset.ctxs[0]? = some Ctx.atReset ∧ State.reset.config.eccMethod.registered = false
    ∧ (registeredFor .crc8 (holding (filled [] 248 0) (filled [] 249 0))).inv
    ∧ (registeredFor .crc8 (holding (filled [] 248 0) (filled [] 249 0))).config.eccMethod.value = kindCode .crc8
    ∧ 248 + trailerWidth .crc8 ≤ Params.ref.capBits ∧ Params.ref.capBits < 249 + trailerWidth .crc8 := by decide

/-- ChkcorrReportsWithItsPolarity: a length one bit short of a trailer, and a trailer with nothing before it -/
theorem witness_chkcorr :
    let s := registeredFor .crc32 (holding (filled [] 31 31) (filled [] 32 32))
    s.config.eccMethod.registered = true ∧ s.config.eccMethod.value = kindCode .crc32
    ∧ s.ctxs[0]? = some (filled [] 31 31) ∧ 31 < trailerWidth .crc32
    ∧ s.ctxs[1]? = some (filled [] 32 32) ∧ trailerWidth .crc32 ≤ 32 ∧ 32 ≤ 32 ∧ 32 ≤ s.params.capBits := by decide

/-- ChkcorrReportsWithItsPolarity: unregistered, and a length one bit above the cursor (in no state a run reaches) -/
theorem witness_chkcorr_above_cursor :
    State.reset.config.eccMethod.registered = false
    ∧ (registeredFor .crc32 (holding (filled [] 32 33) (filled [] 32 32))).ctxs[0]? = some (filled [] 32 33)
    ∧ 32 < 33 := by decide

/-- ChklenAnswersTheTrailerWidth: unregistered, and registered with the last kind -/
theorem witness_chklen :
    State.reset.config.eccMethod.registered = false
    ∧ (registeredFor .checksum32 State.reset).config.eccMethod.registered = true
    ∧ (registeredFor .checksum32 State.reset).config.eccMethod.value = BitVec.ofNat 8 5 ∧ 5 < 6 := by decide

/-- LoopBackReportsAMatch: `witness_preptx`'s state, from context 0 into context 1 -/
theorem witness_loop_back :
    ready.inv ∧ 0 < ready.nMsg ∧ 1 < ready.nMsg ∧ 0 ≠ 1
    ∧ ready.config.modemId.registered = true ∧ ready.config.stationary.registered = true
    ∧ ready.config.eccMethod.registered = true ∧ ready.config.eccMethod.value = kindCode .crc8
    ∧ ready.app.contentType ≠ ready.params.evalType
    ∧ ready.params.preamble.length + ready.app.lengthBits + trailerWidth .crc8 ≤ ready.params.capBits := by decide

/-- PktregRegistersOnce, EccregRegistersOnce, GetcfgReadsARegisteredRegister: unregistered and registered, the first number
that names no register -/
theorem witness_registers :
    State.reset.inv ∧ State.reset.config.modemId.registered = false ∧ State.reset.config.eccMethod.registered = false
    ∧ ready.inv ∧ ready.config.modemId.registered = true ∧ ready.config.eccMethod.registered = true ∧ 3 ≤ 3
    ∧ (2, CfgId.stationary) ∈ [(0, CfgId.eccMethod), (1, .modemId), (2, .stationary)] := by decide

/-- SetcfgChecksThenWrites: the first value above a limit, one below a limit, the value held, a new value at the limit -/
theorem witness_setcfg :
    ready.inv ∧ (ready.cfg .eccMethod).registered = true ∧ 5 < (6#32).toNat
    ∧ ({ ready with params := { ready.params with modemIdMin := 1 } } : State).inv ∧ (0#32).toNat < 1
    ∧ (0#32).toNat = (ready.cfg .eccMethod).value.toNat
    ∧ (5#32).toNat ≤ 5 ∧ (5#32).toNat ≠ (ready.cfg .eccMethod).value.toNat
    ∧ (State.reset.cfg .eccMethod).registered = false := by decide

/-- ContextsAreIndependent, AppendedBitsStay, ContextFieldsHaveTheirWriters, ConfigurationAndStagingHaveTheirWriters: a
command on context 1, which keeps its cursor's bits, the commands that write `final_length`, a flag, a register and the
staging area -/
theorem witness_writers :
    ready.inv ∧ handleOf (.add8 1 7) = some 1 ∧ handleOf (.add8 1 7) ≠ some 0
    ∧ (match exec (.rxseal 0) vA3, exec (.rxpre 0) vA3, exec (.setcfg 0 5) ready, exec .pktreg State.reset,
          exec (.appwr 0 1) ready with
       | .next t, .next u, .next v, .next x, .next y =>
         [t.ctxs[0]? == some { filled [0xBF, 0xF5, 0x79, 0xA0] 27 27 with fullyReceived := true },
          u.ctxs[0]? == some { filled [0xBF, 0xF5, 0x79, 0xA0] 27 0 with preambleReceived := true },
          (v.cfg .eccMethod).value != (ready.cfg .eccMethod).value,
          (x.cfg .modemId).registered != (State.reset.cfg .modemId).registered, y.app != ready.app]
       | _, _, _, _, _ => []) = [true, true, true, true, true] := by decide

/-- OtherContextsAreNotRead: another context 0 beside the same context 1, under a command on context 1; the same for a
bad handle, which no list of two holds; and a command that names none -/
theorem witness_other_contexts :
    Outcome.isNext (exec (.add8 1 7) ready) = true ∧ handleOf (.add8 1 7) = some 1
    ∧ [Ctx.atReset, Ctx.atReset][1]? = ready.ctxs[1]? ∧ [Ctx.atReset, Ctx.atReset][0]? ≠ ready.ctxs[0]?
    ∧ Outcome.isNext (exec (.add8 2 7) ready) = true ∧ [Ctx.atReset, Ctx.atReset][2]? = ready.ctxs[2]?
    ∧ Outcome.isNext (exec .chklen ready) = true ∧ handleOf .chklen = none := by decide

end Sys2Proof.Machine.Tests
end

section
/-! The state of the block (10_state.md): one inversion says everything a command can do to the state before its
response is produced, and the invariant, the frames and the lists of writers are read off it. That other contexts are
not read is a relation between two runs, with one rule per shared operation. -/

namespace Sys2Proof.Machine

/-! ## What a command does to a context and to the state -/

/-- What a command that names context `m` can make of it, from `c` to `d`. -/
inductive CtxWrite (s : State) (m : Nat) : Instr → Ctx → Ctx → Prop
  /-- an append command (40_append_ops.md R80 to R83) -/
  | append {i : Instr} {c d : Ctx} (bs : List Bool) (hm : handleOf i = some m)
      (ha : c.append s.params.capBits bs = some d) : CtxWrite s m i c d
  /-- PREPRX (R101) -/
  | reset (c : Ctx) : CtxWrite s m (.preprx m) c resetCtx
  /-- a PREPTX that succeeds (R100) -/
  | frame (c : Ctx) {d : Ctx} (hb : buildFrame s = .built d) : CtxWrite s m (.preptx m) c d
  /-- a PREPTX that fails after its reset step (R108, case b) -/
  | drawn (c : Ctx) : CtxWrite s m (.preptx m) c (drawnCtx s.params s.draws)
  /-- RXPRE (R103) -/
  | preamble (c : Ctx) : CtxWrite s m (.rxpre m) c { c with preambleReceived := true }
  /-- RXSEAL (R104) -/
  | sealed (c : Ctx) : CtxWrite s m (.rxseal m) c { c with finalLength := c.bitCount, fullyReceived := true }
  /-- ADDCORR (43_integrity_ops.md R130) -/
  | trailer {c d : Ctx} (kind : Kind) (hk : s.config.eccMethod.value = kindCode kind)
      (ha : addTrailer s.params kind c = some d) : CtxWrite s m (.addcorr m) c d

/-- Everything a command can do to the state but for its response. -/
inductive Effect (s : State) : Instr → State → Prop
  /-- nothing: a command that only reads, or a failure -/
  | nothing (i : Instr) : Effect s i s
  /-- one context written; `n` is the count of free contexts drawn, which is no state of the block (log entry 5) -/
  | context {i : Instr} {m : Nat} {c d : Ctx} (n : Nat) (hc : s.ctxs[m]? = some c) (hw : CtxWrite s m i c d) :
      Effect s i { s.setCtx m d with draws := n }
  /-- PKTREG (44_config_ops.md R150) -/
  | pktreg : Effect s .pktreg (register (register s .modemId) .stationary)
  /-- ECCREG (R151) -/
  | eccreg : Effect s .eccreg (register s .eccMethod)
  /-- SETCFG with a new value (R152) -/
  | setcfg {j : Nat} {v : BitVec 32} {id : CfgId} (hj : registeredId s j = some id)
      (hv : withinLimits s.params id v = true) :
      Effect s (.setcfg j v) (s.setCfg id { s.cfg id with value := v.setWidth 8, modified := true })
  /-- APPWR (42_frame_ops.md R105) -/
  | appwr {idx : Nat} (byte : BitVec 8) (hi : idx < s.params.capBytes) :
      Effect s (.appwr idx byte) (s.setApp { s.app with data := s.app.data.write idx byte })
  /-- APPHDR (R106) -/
  | apphdr (type : BitVec 8) {lengthBits : Nat} (hl : lengthBits ≤ s.params.capBits) :
      Effect s (.apphdr type lengthBits) (s.setApp { s.app with contentType := type, lengthBits := lengthBits })

/-- `t` is the state after an effect of the command and one response. -/
def Answers (i : Instr) (s t : State) : Prop := ∃ (u : State) (r : Response), Effect s i u ∧ t = u.respond r

variable {i : Instr} {s t u : State} {m : Nat} {c d : Ctx}

theorem Answers.unchanged {r : Response} (h : t = s.respond r) : Answers i s t := ⟨s, r, .nothing i, h⟩

theorem Answers.of_effect {r : Response} (he : Effect s i u) (h : answer u r = .next t) : Answers i s t :=
  ⟨u, r, he, by simpa using h.symm⟩

/-- A write of the named context that draws no free context, and its response. -/
theorem Answers.of_ctxWrite {r : Response} (hc : s.ctxs[m]? = some c) (hw : CtxWrite s m i c d)
    (h : answer (s.setCtx m d) r = .next t) : Answers i s t := .of_effect (.context s.draws hc hw) h

theorem withCtx_answers {f : Ctx → Host.Outcome State Fault Refusal} (h : withCtx m s f = .next t)
    (hf : ∀ c, s.ctxs[m]? = some c → f c = .next t → Answers i s t) : Answers i s t := by
  obtain ⟨-, ht⟩ | ⟨c, hc, ht⟩ := withCtx_next h
  · exact .unchanged ht
  · exact hf c hc ht

theorem withKind_answers {k : Kind → Host.Outcome State Fault Refusal} (h : withKind s k = .next t)
    (hk : ∀ kind, s.config.eccMethod.value = kindCode kind → k kind = .next t → Answers i s t) : Answers i s t := by
  obtain ⟨-, ht⟩ | ⟨kind, -, hv, ht⟩ := withKind_next h
  · exact .unchanged ht
  · exact hk kind (kindCode_of_kindOf hv) ht

theorem extract_answers {pos n : Nat} {k : Nat → Response} (h : extract c s pos n k = .next t) : Answers i s t := by
  obtain ⟨-, -, ht⟩ | ⟨-, -, ht⟩ | ⟨-, -, ht⟩ := extract_next h <;> exact .unchanged ht

theorem appendCommand_answers {bs : List Bool} (hm : handleOf i = some m) (h : appendCommand m bs s = .next t) :
    Answers i s t :=
  withCtx_answers h fun c hc h => by
    cases ha : c.append s.params.capBits bs with
    | none => exact .of_effect (.nothing i) (by simpa [ha] using h)
    | some d => exact .of_ctxWrite hc (.append bs hm ha) (by simpa [ha] using h)

theorem execPreptx_answers (h : execPreptx m s = .next t) : Answers (.preptx m) s t :=
  withCtx_answers h fun c hc h => by
    split at h
    · split at h
      · next d hb => exact .of_ctxWrite hc (.frame c hb) h
      · exact .of_effect (.context (s.draws + 1) hc (.drawn c)) h
      · cases h
    · exact .of_effect (.nothing _) h

theorem execAddcorr_answers (h : execAddcorr m s = .next t) : Answers (.addcorr m) s t :=
  withCtx_answers h fun c hc h => withKind_answers h fun kind hk h => by
    split at h
    · exact .of_effect (.nothing _) h
    · next d ha => exact .of_ctxWrite hc (.trailer kind hk ha) h

theorem execChkcorr_answers (h : execChkcorr m s = .next t) : Answers (.chkcorr m) s t :=
  withCtx_answers h fun c _ h => withKind_answers h fun kind _ h => by
    split at h
    · exact .of_effect (.nothing _) h
    · split at h
      · cases h
      · exact .of_effect (.nothing _) h

theorem execSetcfg_answers {j : Nat} {v : BitVec 32} (h : execSetcfg j v s = .next t) : Answers (.setcfg j v) s t := by
  unfold execSetcfg at h
  split at h
  · exact .of_effect (.nothing _) h
  · next id hj =>
    split at h
    · exact .of_effect (.nothing _) h
    · next hv =>
      split at h
      · exact .of_effect (.nothing _) h
      · exact .of_effect (.setcfg hj (by simpa using hv)) h

/-- A command that answers a next state has had one of the effects above and has produced one response. -/
theorem exec_answers (h : exec i s = .next t) : Answers i s t := by
  cases i with
  | addbit | add8 | add16 | add32 => exact appendCommand_answers rfl h
  | getbit | get8 | get16 | get32 => exact withCtx_answers h fun _ _ h => extract_answers h
  | getchunk =>
    refine withCtx_answers h fun c _ h => ?_
    split at h
    · exact .of_effect (.nothing _) h
    · exact extract_answers h
  | preptx => exact execPreptx_answers h
  | preprx => exact withCtx_answers h fun c hc h => .of_ctxWrite hc (.reset c) h
  | minsize => exact .of_effect (.nothing _) h
  | rxpre => exact withCtx_answers h fun c hc h => .of_ctxWrite hc (.preamble c) h
  | rxseal => exact withCtx_answers h fun c hc h => .of_ctxWrite hc (.sealed c) h
  | appwr idx byte =>
    simp only [exec, execAppwr] at h
    split at h
    · exact .of_effect (.nothing _) h
    · exact .of_effect (.appwr byte (by omega)) h
  | apphdr type lengthBits =>
    simp only [exec, execApphdr] at h
    split at h
    · exact .of_effect (.nothing _) h
    · exact .of_effect (.apphdr type (by omega)) h
  | rdctx =>
    refine withCtx_answers h fun c _ h => ?_
    split at h <;> exact .of_effect (.nothing _) h
  | addcorr => exact execAddcorr_answers h
  | chkcorr => exact execChkcorr_answers h
  | chklen => exact withKind_answers h fun _ _ h => .of_effect (.nothing _) h
  | pktreg =>
    simp only [exec, execPktreg] at h
    split at h
    · exact .of_effect (.nothing _) h
    · exact .of_effect .pktreg h
  | eccreg =>
    simp only [exec, execEccreg] at h
    split at h
    · exact .of_effect (.nothing _) h
    · exact .of_effect .eccreg h
  | setcfg => exact execSetcfg_answers h
  | getcfg =>
    simp only [exec, execGetcfg] at h
    split at h <;> exact .of_effect (.nothing _) h

/-! ## What every effect leaves alone -/

theorem CtxWrite.handleOf_eq (h : CtxWrite s m i c d) : handleOf i = some m := by
  cases h with
  | append _ hm _ => exact hm
  | reset | frame | drawn | preamble | sealed | trailer => rfl

theorem Effect.params_eq (h : Effect s i u) : u.params = s.params := by cases h <;> rfl

theorem Effect.commands_eq (h : Effect s i u) : u.commands = s.commands := by cases h <;> rfl

theorem Effect.responses_eq (h : Effect s i u) : u.responses = s.responses := by cases h <;> rfl

theorem Effect.ctxs_length (h : Effect s i u) : u.ctxs.length = s.ctxs.length := by
  cases h with
  | context n hc hw => exact List.length_set
  | nothing | pktreg | eccreg | setcfg | appwr | apphdr => rfl

/-- A context that the command does not name is as before. -/
theorem Effect.getElem?_of_not_named (h : Effect s i u) (hm : handleOf i ≠ some m) : u.ctxs[m]? = s.ctxs[m]? := by
  cases h with
  | context n hc hw =>
    refine List.getElem?_set_ne ?_
    rintro rfl
    exact hm hw.handleOf_eq
  | nothing | pktreg | eccreg | setcfg | appwr | apphdr => rfl

/-- Any context, before and after: it is as before, or the command's write. -/
theorem Effect.ctx_cases (h : Effect s i u) (hc : s.ctxs[m]? = some c) (hd : u.ctxs[m]? = some d) :
    d = c ∨ CtxWrite s m i c d := by
  cases h with
  | @context _ m' c' d' n hc' hw =>
    by_cases hm : m' = m
    · subst hm
      obtain ⟨hlt, -⟩ := List.getElem?_eq_some_iff.1 hc
      obtain rfl : c' = c := Option.some.inj (hc'.symm.trans hc)
      obtain rfl : d' = d := Option.some.inj ((List.getElem?_set_self hlt).symm.trans hd)
      exact .inr hw
    · exact .inl (Option.some.inj (hd.symm.trans ((List.getElem?_set_ne hm).trans hc)))
  | nothing | pktreg | eccreg | setcfg | appwr | apphdr => exact .inl (Option.some.inj (hd.symm.trans hc))

/-- A command that names a context changes neither the configuration nor the staging area. -/
theorem Effect.config_app_of_named (h : Effect s i u) (hm : handleOf i = some m) :
    u.config = s.config ∧ u.app = s.app := by
  cases h with
  | nothing | context => exact ⟨rfl, rfl⟩
  | pktreg | eccreg | setcfg | appwr | apphdr => cases hm

/-! ## The registers -/

/-- A registration leaves the value and the modified flag of every register. -/
@[simp] theorem register_value (s : State) (id id' : CfgId) :
    ((register s id).cfg id').value = (s.cfg id').value := by
  rw [register, State.cfg_setCfg]; split <;> simp [*]

@[simp] theorem register_modified (s : State) (id id' : CfgId) :
    ((register s id).cfg id').modified = (s.cfg id').modified := by
  rw [register, State.cfg_setCfg]; split <;> simp [*]

/-- A registration registers its register and no other. -/
@[simp] theorem register_registered (s : State) (id id' : CfgId) :
    ((register s id).cfg id').registered = (decide (id' = id) || (s.cfg id').registered) := by
  rw [register, State.cfg_setCfg]; split <;> simp [*]

@[simp] theorem register_params (s : State) (id : CfgId) : (register s id).params = s.params := rfl

theorem mem_of_cfgIdOf {j : Nat} {id : CfgId} (h : cfgIdOf j = some id) :
    (j, id) ∈ [(0, CfgId.eccMethod), (1, .modemId), (2, .stationary)] := by
  match j with
  | 0 | 1 | 2 => cases h; decide
  | j + 3 => cases h

/-- The configuration's invariant, register by register. -/
theorem config_wf_iff {p : Params} : s.config.wf p ↔ (∀ id, (s.cfg id).legal p id) ∧
    (s.cfg .modemId).registered = (s.cfg .stationary).registered := by
  constructor
  · rintro ⟨he, hm, hs, hr⟩
    refine ⟨fun id => ?_, hr⟩
    cases id
    exacts [he, hm, hs]
  · rintro ⟨hl, hr⟩
    exact ⟨hl .eccMethod, hl .modemId, hl .stationary, hr⟩

/-- A value within the limits of a register is legal once it is cut to the register's byte. -/
theorem legal_of_withinLimits {p : Params} {id : CfgId} {v : BitVec 32} (h : withinLimits p id v = true)
    (registered modified : Bool) : ConfigReg.legal p id ⟨v.setWidth 8, registered, modified⟩ := by
  obtain ⟨hmin, hmax⟩ : cfgMin p id ≤ v.toNat ∧ v.toNat ≤ cfgMax p id := by simpa [withinLimits] using h
  have hle := cfgMax_le p id
  have hv : (v.setWidth 8).toNat = v.toNat := by
    rw [BitVec.toNat_setWidth]; exact Nat.mod_eq_of_lt (by omega)
  exact ⟨hv ▸ hmin, hv ▸ hmax⟩

/-! ## The invariant -/

theorem CtxWrite.wf (h : CtxWrite s m i c d) (hc : c.wf s.params) : d.wf s.params := by
  cases h with
  | append _ _ ha => exact Ctx.append_wf hc ha
  | reset => exact resetCtx_wf _
  | frame _ hb => exact buildFrame_wf hb
  | drawn => exact drawnCtx_wf _ _
  | preamble => exact hc
  | sealed =>
    obtain ⟨-, hcap, hbuf⟩ := hc
    exact ⟨Nat.le_refl _, hcap, hbuf⟩
  | trailer _ _ ha => exact addTrailer_wf hc ha

theorem Effect.ctxs_wf (h : Effect s i u) (hs : ∀ c ∈ s.ctxs, c.wf s.params) : ∀ c ∈ u.ctxs, c.wf s.params := by
  cases h with
  | context n hc hw =>
    intro e he
    obtain he | rfl := List.mem_or_eq_of_mem_set he
    · exact hs e he
    · exact hw.wf (hs _ (List.mem_of_getElem? hc))
  | nothing | pktreg | eccreg | setcfg | appwr | apphdr => exact hs

theorem Effect.app_wf (h : Effect s i u) (hs : s.app.wf s.params) : u.app.wf s.params := by
  cases h with
  | appwr byte hi =>
    obtain ⟨hlen, hform, hbelow⟩ := hs
    exact ⟨hlen, Memory.write_wf hform _ _, Memory.write_below hbelow hi _⟩
  | apphdr type hl => exact ⟨hl, hs.2⟩
  | nothing | context | pktreg | eccreg | setcfg => exact hs

theorem Effect.config_wf (h : Effect s i u) (hs : s.config.wf s.params) : u.config.wf s.params := by
  have ⟨hlegal, htogether⟩ := config_wf_iff.1 hs
  cases h with
  | pktreg => exact config_wf_iff.2 ⟨fun id => by simpa [ConfigReg.legal] using hlegal id, by simp⟩
  | eccreg => exact config_wf_iff.2 ⟨fun id => by simpa [ConfigReg.legal] using hlegal id, by simpa using htogether⟩
  | @setcfg j v id hj hv =>
    refine config_wf_iff.2 ⟨fun id' => ?_, ?_⟩
    · rw [State.cfg_setCfg]
      split
      · next hid => exact hid ▸ legal_of_withinLimits hv _ _
      · exact hlegal id'
    · cases id <;> simpa [State.cfg_setCfg] using htogether
  | nothing | context | appwr | apphdr => exact hs

theorem Effect.inv (h : Effect s i u) (hs : s.inv) : u.inv := by
  obtain ⟨hparams, hn, hctxs, happ, hconfig⟩ := hs
  rw [State.inv, State.nMsg, h.params_eq, h.ctxs_length]
  exact ⟨hparams, hn, h.ctxs_wf hctxs, h.app_wf happ, h.config_wf hconfig⟩

/-- The invariant holds after every command that answers a next state. -/
theorem exec_inv (hs : s.inv) (h : exec i s = .next t) : t.inv := by
  obtain ⟨u, r, he, rfl⟩ := exec_answers h
  exact he.inv hs

theorem runWord_inv {w : Word} (hs : s.inv) (h : runWord w s = .next t) : t.inv := by
  unfold runWord at h
  split at h
  · exact exec_inv hs h
  · cases h; exact hs

/-- Settles O11: the invariant holds of the state without its next command word, and `exec` and ILLEGAL keep it. -/
theorem stepKeepsTheInvariant : Obligations.StepKeepsTheInvariant := by
  intro s t hs h
  unfold step stepPort at h
  split at h
  · cases h; exact hs
  · exact runWord_inv (s := s.takeCommand) hs h

/-! ## One response, and the writers of 10_state.md -/

/-- Settles O9, from what every effect leaves alone. -/
theorem everyCommandAnswersOnce : Obligations.EveryCommandAnswersOnce := by
  intro i s t h
  obtain ⟨u, r, he, rfl⟩ := exec_answers h
  exact ⟨⟨r.word, by simp [he.responses_eq]⟩, he.params_eq, he.commands_eq, he.ctxs_length⟩

/-- Settles O55: an effect writes the context named, or the configuration or staging area where none is named. -/
theorem contextsAreIndependent : Obligations.ContextsAreIndependent := by
  intro i s t h
  obtain ⟨u, r, he, rfl⟩ := exec_answers h
  exact ⟨fun _ hm => he.getElem?_of_not_named hm, fun _ hm => he.config_app_of_named hm⟩

/-- Settles O58, write by write. -/
theorem contextFieldsHaveTheirWriters : Obligations.ContextFieldsHaveTheirWriters := by
  intro i s t m c d h hc hd hprx hptx
  obtain ⟨u, r, he, rfl⟩ := exec_answers h
  obtain rfl | hw := he.ctx_cases hc hd
  · simp
  cases hw with
  | append _ _ ha =>
    obtain ⟨-, rfl⟩ := Ctx.append_eq_some.1 ha
    simp
  | reset => exact absurd rfl hprx
  | frame | drawn => exact absurd rfl hptx
  | preamble | sealed => simp
  | trailer kind hk ha =>
    obtain ⟨-, rfl⟩ := addTrailer_eq_some.1 ha
    exact ⟨fun _ => .inr ⟨rfl, kind, hk, rfl⟩, by simp⟩

/-- A value or a modified flag changes only by SETCFG of that register while registered (10_state.md R14, R18). -/
theorem Effect.value_writers {id : CfgId} (h : Effect s i u)
    (hne : (u.cfg id).value ≠ (s.cfg id).value ∨ (u.cfg id).modified ≠ (s.cfg id).modified) :
    (∃ j v, i = .setcfg j v ∧ (j, id) ∈ [(0, CfgId.eccMethod), (1, .modemId), (2, .stationary)])
      ∧ (s.cfg id).registered = true ∧ (u.cfg id).modified = true := by
  cases h with
  | @setcfg j v id' hj hv =>
    obtain ⟨hid, hr⟩ := registeredId_eq_some.1 hj
    simp only [State.cfg_setCfg] at hne ⊢
    split at hne
    · next e =>
      subst e
      exact ⟨⟨j, v, rfl, mem_of_cfgIdOf hid⟩, hr, by simp⟩
    · simp at hne
  | pktreg | eccreg => simp at hne
  | nothing | context | appwr | apphdr => cases id <;> exact absurd hne (by simp [State.cfg])

/-- A registered bit changes only to 1, by the hook of its register (10_state.md R19). -/
theorem Effect.registered_writers {id : CfgId} (h : Effect s i u)
    (hne : (u.cfg id).registered ≠ (s.cfg id).registered) :
    (u.cfg id).registered = true ∧ i = (if id = .eccMethod then .eccreg else .pktreg) := by
  cases h with
  | pktreg | eccreg => cases id <;> simp at hne ⊢
  | setcfg =>
    simp only [State.cfg_setCfg] at hne
    split at hne
    · next e => exact absurd (e ▸ rfl) hne
    · exact absurd rfl hne
  | nothing | context | appwr | apphdr => cases id <;> exact absurd rfl hne

/-- The staging area changes only by APPWR and APPHDR (10_state.md R29). -/
theorem Effect.app_writers (h : Effect s i u) (hne : u.app ≠ s.app) :
    (∃ idx byte, i = .appwr idx byte) ∨ ∃ type lengthBits, i = .apphdr type lengthBits := by
  cases h with
  | appwr => exact .inl ⟨_, _, rfl⟩
  | apphdr => exact .inr ⟨_, _, rfl⟩
  | nothing | context | pktreg | eccreg | setcfg => exact absurd rfl hne

/-- Settles O59, from the writers of each piece of state. -/
theorem configurationAndStagingHaveTheirWriters : Obligations.ConfigurationAndStagingHaveTheirWriters := by
  intro i s t id h
  obtain ⟨u, r, he, rfl⟩ := exec_answers h
  simp only [State.cfg_respond, State.respond_app]
  exact ⟨he.value_writers, he.registered_writers, he.app_writers⟩

/-! ## What a command reads -/

/-- The second outcome answers as the first but for the contexts, and what the two leave of those stands in `R`. -/
def AnswersAlike (R : List Ctx → List Ctx → Prop) (o o' : Host.Outcome State Fault Refusal) : Prop :=
  ∀ t, o = .next t → ∃ after : List Ctx, o' = .next { t with ctxs := after } ∧ R t.ctxs after

/-- Context `m` is alike in both lists, and each other one of the second list is that of `others`. -/
def AlikeAt (m : Nat) (others before after : List Ctx) : Prop :=
  after[m]? = before[m]? ∧ ∀ m', m' ≠ m → after[m']? = others[m']?

/-- A write of the context that is alike in both lists. -/
theorem AlikeAt.set {others before : List Ctx} (h : AlikeAt m others before others) (d : Ctx) :
    AlikeAt m others (before.set m d) (others.set m d) := by
  obtain ⟨hm, -⟩ := h
  refine ⟨?_, fun m' hne => List.getElem?_set_ne hne.symm⟩
  rw [List.getElem?_set_self', List.getElem?_set_self', hm]

section rules
variable {R : List Ctx → List Ctx → Prop} {others : List Ctx}

theorem answersAlike_answer (h : R s.ctxs others) (r : Response) :
    AnswersAlike R (answer s r) (answer { s with ctxs := others } r) := by
  rintro _ ⟨⟩
  exact ⟨others, rfl, h⟩

theorem answersAlike_fault (f f' : Fault) : AnswersAlike R (.fault f) (.fault f') :=
  fun _ h => by cases h

theorem answersAlike_withKind {k k' : Kind → Host.Outcome State Fault Refusal} (h : R s.ctxs others)
    (hk : ∀ kind, AnswersAlike R (k kind) (k' kind)) :
    AnswersAlike R (withKind s k) (withKind { s with ctxs := others } k') := by
  unfold withKind
  dsimp only
  split
  · split
    · exact hk _
    · exact answersAlike_fault _ _
  · exact answersAlike_answer h _

theorem answersAlike_extract (h : R s.ctxs others) (c : Ctx) (pos n : Nat) (k : Nat → Response) :
    AnswersAlike R (extract c s pos n k) (extract c { s with ctxs := others } pos n k) := by
  unfold extract
  dsimp only
  split
  · exact answersAlike_answer h _
  · split
    · exact answersAlike_fault _ _
    · exact answersAlike_answer h _

/-- A command on a context that is alike reads the same context in both runs. -/
theorem answersAlike_withCtx {f f' : Ctx → Host.Outcome State Fault Refusal} (h : AlikeAt m others s.ctxs others)
    (hf : ∀ c, AnswersAlike (AlikeAt m others) (f c) (f' c)) :
    AnswersAlike (AlikeAt m others) (withCtx m s f) (withCtx m { s with ctxs := others } f') := by
  unfold withCtx
  dsimp only
  rw [h.1]
  split
  · exact answersAlike_answer h _
  · exact hf _

/-- A write of the named context and its response. -/
theorem answersAlike_write (h : AlikeAt m others s.ctxs others) (d : Ctx) (r : Response) :
    AnswersAlike (AlikeAt m others) (answer (s.setCtx m d) r)
      (answer (({ s with ctxs := others } : State).setCtx m d) r) :=
  answersAlike_answer (s := s.setCtx m d) (h.set d) r

theorem appendCommand_alike (h : AlikeAt m others s.ctxs others) (bs : List Bool) :
    AnswersAlike (AlikeAt m others) (appendCommand m bs s) (appendCommand m bs { s with ctxs := others }) := by
  refine answersAlike_withCtx h fun c => ?_
  dsimp only
  split
  · exact answersAlike_answer h _
  · exact answersAlike_write h _ _

theorem execPreptx_alike (h : AlikeAt m others s.ctxs others) :
    AnswersAlike (AlikeAt m others) (execPreptx m s) (execPreptx m { s with ctxs := others }) := by
  refine answersAlike_withCtx h fun _ => ?_
  rw [buildFrame_withCtxs s others]
  dsimp only
  split
  · split
    · exact answersAlike_write h _ _
    · exact answersAlike_answer (s := (s.setCtx m _).bumpDraws) (h.set _) _
    · exact answersAlike_fault _ _
  · exact answersAlike_answer h _

theorem execAddcorr_alike (h : AlikeAt m others s.ctxs others) :
    AnswersAlike (AlikeAt m others) (execAddcorr m s) (execAddcorr m { s with ctxs := others }) := by
  refine answersAlike_withCtx h fun _ => answersAlike_withKind h fun _ => ?_
  dsimp only
  split
  · exact answersAlike_answer h _
  · exact answersAlike_write h _ _

theorem execChkcorr_alike (h : AlikeAt m others s.ctxs others) :
    AnswersAlike (AlikeAt m others) (execChkcorr m s) (execChkcorr m { s with ctxs := others }) := by
  refine answersAlike_withCtx h fun _ => answersAlike_withKind h fun _ => ?_
  dsimp only
  split
  · exact answersAlike_answer h _
  · split
    · exact answersAlike_fault _ _
    · exact answersAlike_answer h _

/-- A command that names context `m` reads no other. -/
theorem exec_alike_of_named (hi : handleOf i = some m) (h : AlikeAt m others s.ctxs others) :
    AnswersAlike (AlikeAt m others) (exec i s) (exec i { s with ctxs := others }) := by
  cases i with
  | addbit | add8 | add16 | add32 => cases hi; exact appendCommand_alike h _
  | getbit | get8 | get16 | get32 =>
    cases hi; exact answersAlike_withCtx h fun c => answersAlike_extract h c _ _ _
  | getchunk =>
    cases hi
    refine answersAlike_withCtx h fun c => ?_
    split
    · exact answersAlike_answer h _
    · exact answersAlike_extract h c _ _ _
  | preptx => cases hi; exact execPreptx_alike h
  | preprx | rxpre | rxseal => cases hi; exact answersAlike_withCtx h fun _ => answersAlike_write h _ _
  | rdctx =>
    cases hi
    refine answersAlike_withCtx h fun c => ?_
    split <;> exact answersAlike_answer h _
  | addcorr => cases hi; exact execAddcorr_alike h
  | chkcorr => cases hi; exact execChkcorr_alike h
  | minsize | appwr | apphdr | chklen | pktreg | eccreg | setcfg | getcfg => cases hi

theorem execSetcfg_alike (h : R s.ctxs others) (j : Nat) (v : BitVec 32) :
    AnswersAlike R (execSetcfg j v s) (execSetcfg j v { s with ctxs := others }) := by
  unfold execSetcfg
  simp only [registeredId_withCtxs, cfg_withCtxs]
  split
  · exact answersAlike_answer h _
  · split
    · exact answersAlike_answer h _
    · split
      · exact answersAlike_answer h _
      · exact answersAlike_answer (s := s.setCfg _ _) h _

/-- A command that names no context reads none. -/
theorem exec_alike_of_nameless (hi : handleOf i = none) (h : R s.ctxs others) :
    AnswersAlike R (exec i s) (exec i { s with ctxs := others }) := by
  cases i with
  | minsize => exact answersAlike_answer h _
  | appwr idx byte =>
    simp only [exec, execAppwr]
    split
    · exact answersAlike_answer h _
    · exact answersAlike_answer (s := s.setApp { s.app with data := s.app.data.write idx byte }) h _
  | apphdr type lengthBits =>
    simp only [exec, execApphdr]
    split
    · exact answersAlike_answer h _
    · exact answersAlike_answer (s := s.setApp { s.app with contentType := type, lengthBits := lengthBits }) h _
  | chklen => exact answersAlike_withKind h fun _ => answersAlike_answer h _
  | pktreg =>
    simp only [exec, execPktreg, cfg_withCtxs]
    split
    · exact answersAlike_answer h _
    · exact answersAlike_answer (s := register (register s _) _) h _
  | eccreg =>
    simp only [exec, execEccreg, cfg_withCtxs]
    split
    · exact answersAlike_answer h _
    · exact answersAlike_answer (s := register s _) h _
  | setcfg => exact execSetcfg_alike h _ _
  | getcfg =>
    simp only [exec, execGetcfg, registeredId_withCtxs, cfg_withCtxs]
    split <;> exact answersAlike_answer h _
  | addbit | add8 | add16 | add32 | getbit | getchunk | get8 | get16 | get32 | preptx | preprx | rxpre | rxseal | rdctx
  | addcorr | chkcorr => cases hi

end rules

/-- Settles O60: the two runs are related by `AlikeAt m others`, or by having left `others` where no context is named. -/
theorem otherContextsAreNotRead : Obligations.OtherContextsAreNotRead := by
  intro i s t others h
  refine ⟨fun m hi hm => exec_alike_of_named hi ⟨hm, fun _ _ => rfl⟩ t h, fun hi => ?_⟩
  obtain ⟨_, ht, rfl⟩ := exec_alike_of_nameless (R := fun _ after => after = others) hi rfl t h
  exact ht

/-! ## Steps and reset -/

/-- Settles O6: taking the next word off the port leaves the rest of the queue. -/
theorem stepRunsTheDecodedCommand : Obligations.StepRunsTheDecodedCommand := by
  refine ⟨fun s w rest i hs hw => ?_, fun s hs => ?_⟩
  · have htake : s.takeCommand = { s with commands := rest } := by simp [State.takeCommand, hs]
    simp only [step, stepPort, hs, runWord, hw, htake]
  · simp only [step, stepPort, hs]

/-- Settles O15: the reset registers by definition, and every context of reset is the same empty one. -/
theorem resetValues : Obligations.ResetValues := by
  intro p n
  refine ⟨rfl, rfl, rfl, List.length_replicate, fun c hc => ?_, fun _ => rfl, rfl, rfl⟩
  obtain rfl := List.eq_of_mem_replicate hc
  exact ⟨rfl, rfl, rfl, rfl, rfl, rfl, rfl, fun _ => rfl⟩

/-- The number of a kind is a legal `ECC_METHOD` (10_state.md R14, R15). -/
theorem kindCode_le (kind : Kind) : (kindCode kind).toNat ≤ 5 := by cases kind <;> decide

/-- The registers of reset are legal: the kinds have numbers up to 5 and `MODEM_ID_RESET` lies within its limits
(00_scope.md R5). -/
theorem resetOf_config_wf {p : Params} (hp : p.wf = true) (n : Nat) : (State.resetOf p n).config.wf p := by
  obtain ⟨⟨-, hmin⟩, hmax⟩ : (_ ∧ p.modemIdMin ≤ p.modemIdReset) ∧ p.modemIdReset ≤ p.modemIdMax := by
    simpa only [Params.wf, Bool.and_eq_true, decide_eq_true_eq] using hp
  refine ⟨⟨Nat.zero_le _, kindCode_le _⟩, ⟨hmin, hmax⟩, ⟨Nat.zero_le _, ?_⟩, rfl⟩
  cases hs : p.stationaryReset <;> simp [State.resetOf, ConfigReg.atReset, cfgMax, hs]

theorem resetOf_inv {p : Params} {n : Nat} (hp : p.wf = true) (h1 : 1 ≤ n) (h256 : n ≤ 256) :
    (State.resetOf p n).inv := by
  have hlen : (State.resetOf p n).nMsg = n := List.length_replicate
  refine ⟨hp, by rw [hlen]; exact ⟨h1, h256⟩, fun c hc => ?_, ?_, resetOf_config_wf hp n⟩
  · obtain rfl := List.eq_of_mem_replicate hc
    exact resetCtx_wf p
  · obtain ⟨happ, -⟩ := resetOf_stores_wf p n
    exact ⟨Nat.zero_le _, happ, by simp [Memory.below, State.resetOf]⟩

/-- Settles O12: REF meets the constraints of 00_scope.md R5, and so do all parameters of the second clause. -/
theorem resetMeetsTheInvariant : Obligations.ResetMeetsTheInvariant :=
  ⟨resetOf_inv (by decide) (by decide) (by decide), fun _ _ hp h1 h256 => resetOf_inv hp h1 h256⟩

end Sys2Proof.Machine
end

section
/-! The memory of the block (20_memory.md): what a write leaves to be read, at every alignment. A value is read bit by
bit (`memRead_testBit`), a span splits at any point (`memRead_add`), and a span within one byte is a shift and a mask of
that byte (`memRead_within_byte`); the two-byte form, the byte order of an append and the round trip follow. -/

namespace Sys2Proof.Machine

variable {mem : Memory} {p n : Nat}

/-! ## Reading a span -/

/-- A span read in two parts is the split of the whole (41_extract_ops.md R96). -/
theorem memRead_add (mem : Memory) (p a b : Nat) :
    memRead mem p (a + b) = memRead mem p a * 2 ^ b + memRead mem (p + a) b := by
  induction b with
  | zero => simp [memRead]
  | succ b ih => rw [← Nat.add_assoc, memRead, memRead, ih, Nat.add_assoc p a b, pow_succ]; ring

/-- Settles O28. -/
theorem readsSplitAtAnyPoint : Obligations.ReadsSplitAtAnyPoint := memRead_add

/-- `MemRead` in the form of 20_memory.md R44: one more bit doubles every weight and stands at weight 1. -/
theorem memRead_eq_sum (mem : Memory) (p n : Nat) :
    memRead mem p n = ∑ k ∈ Finset.range n, (bitRead mem (p + k)).toNat * 2 ^ (n - 1 - k) := by
  induction n with
  | zero => rfl
  | succ n ih =>
    have hweight : ∀ k ∈ Finset.range n, (bitRead mem (p + k)).toNat * 2 ^ (n + 1 - 1 - k)
        = 2 * ((bitRead mem (p + k)).toNat * 2 ^ (n - 1 - k)) := fun k hk => by
      have hk := Finset.mem_range.1 hk
      rw [show n + 1 - 1 - k = n - 1 - k + 1 by omega, pow_succ]; ring
    rw [memRead, ih, Finset.mul_sum, Finset.sum_range_succ, Finset.sum_congr rfl hweight]
    simp

/-- Settles O17. -/
theorem memReadIsTheWeightedSum : Obligations.MemReadIsTheWeightedSum :=
  fun mem p n => ⟨memRead_eq_sum mem p n, rfl, memRead_lt mem p n⟩

/-- A span within one byte is that byte shifted and masked. -/
theorem memRead_within_byte (mem : Memory) (h : p % 8 + n ≤ 8) :
    memRead mem p n = ((mem.read (p / 8)).toNat >>> (8 - p % 8 - n)) &&& (2 ^ n - 1) := by
  refine Nat.eq_of_testBit_eq fun k => ?_
  rw [memRead_testBit, Nat.testBit_and, Nat.testBit_shiftRight, Nat.testBit_two_pow_sub_one, Bool.and_comm]
  by_cases hk : k < n
  · have hbyte : (p + n - 1 - k) / 8 = p / 8 := by omega
    have hbit : 7 - (p + n - 1 - k) % 8 = 8 - p % 8 - n + k := by omega
    rw [bitRead, hbyte, hbit, BitVec.getLsbD]
  · simp [hk]

/-- A span of two bytes is the low bits of the first beside the high bits of the second: the span splits at the byte's
end, and each part lies within its byte. -/
theorem memRead_across_bytes (mem : Memory) (hn : n ≤ 8) (h : 8 < p % 8 + n) :
    memRead mem p n = (((mem.read (p / 8)).toNat &&& (0xFF >>> (p % 8))) <<< (n - (8 - p % 8)))
      ||| ((mem.read (p / 8 + 1)).toNat >>> (8 - (n - (8 - p % 8)))) := by
  obtain ⟨a, r, ha, hr⟩ : ∃ a r, a = 8 - p % 8 ∧ r = n - a := ⟨_, _, rfl, rfl⟩
  have hmask : 0xFF >>> (p % 8) = 2 ^ a - 1 := by
    rw [ha, Nat.shiftRight_eq_div_pow]
    have : p % 8 < 8 := Nat.mod_lt _ (by decide)
    interval_cases p % 8 <;> rfl
  have hfirst : memRead mem p a = (mem.read (p / 8)).toNat &&& (2 ^ a - 1) := by
    rw [memRead_within_byte mem (by omega), show 8 - p % 8 - a = 0 by omega, Nat.shiftRight_zero]
  have hsecond : memRead mem (p + a) r = (mem.read (p / 8 + 1)).toNat >>> (8 - r) := by
    have hlt : (mem.read (p / 8 + 1)).toNat >>> (8 - r) < 2 ^ r := by
      rw [Nat.shiftRight_eq_div_pow, Nat.div_lt_iff_lt_mul (by positivity), ← pow_add, show r + (8 - r) = 8 by omega]
      exact (mem.read (p / 8 + 1)).isLt
    rw [memRead_within_byte mem (by omega), show (p + a) / 8 = p / 8 + 1 by omega,
      show 8 - (p + a) % 8 - r = 8 - r by omega, Nat.and_two_pow_sub_one_of_lt_two_pow hlt]
  rw [← ha, ← hr, hmask, ← hfirst, ← hsecond, show n = a + r by omega, memRead_add,
    ← Nat.shiftLeft_add_eq_or_of_lt (memRead_lt _ _ _), Nat.shiftLeft_eq]

/-- Settles O19, one form a clause. -/
theorem twoByteFormOfAChunk : Obligations.TwoByteFormOfAChunk :=
  fun mem _ _ _ hn => ⟨memRead_within_byte mem, memRead_across_bytes mem hn⟩

/-! ## Reading what was written -/

/-- Settles O16: the byte written is `BitWrite`'s by definition. -/
theorem bitWriteChangesOneBit : Obligations.BitWriteChangesOneBit := by
  intro mem p b hmem
  refine ⟨bitWrite_wf hmem p b, ?_, ?_, fun q hq => ?_, fun a ha => ?_⟩
  · rw [bitWrite, Memory.read_write hmem, if_pos rfl, bitMask]
  · rw [bitRead_bitWrite hmem, if_pos rfl]
  · rw [bitRead_bitWrite hmem, if_neg hq]
  · rw [bitWrite, Memory.read_write hmem, if_neg ha]

/-- A run of bit writes leaves every bit outside its span. -/
theorem bitRead_putBits_outside (hmem : mem.wf) {bs : List Bool} {q : Nat} (hq : q < p ∨ p + bs.length ≤ q) :
    bitRead (putBits mem p bs) q = bitRead mem q := by
  rw [bitRead_putBits bs hmem, if_neg (by omega)]

/-- Bit `k` of a span written is bit `n-1-k` of the value (20_memory.md R45). -/
theorem bitRead_memWrite (hmem : mem.wf) (v : Nat) {k : Nat} (hk : k < n) :
    bitRead (memWrite mem p n v) (p + k) = v.testBit (n - 1 - k) := by
  rw [memWrite, bitRead_putBits _ hmem, bitsOf_length, if_pos (by omega), Nat.add_sub_cancel_left, bitsOf_getD n v k hk]

/-- `k` bits read from `j` bits into a span written are those bits of the value. -/
theorem memRead_memWrite (hmem : mem.wf) (v : Nat) {j k : Nat} (hjk : j + k ≤ n) :
    memRead (memWrite mem p n v) (p + j) k = (v >>> (n - j - k)) % 2 ^ k := by
  refine Nat.eq_of_testBit_eq fun i => ?_
  rw [memRead_testBit, Nat.testBit_mod_two_pow, Nat.testBit_shiftRight]
  by_cases hi : i < k
  · rw [show p + j + k - 1 - i = p + (j + k - 1 - i) by omega, bitRead_memWrite hmem v (by omega),
      show n - 1 - (j + k - 1 - i) = n - j - k + i by omega]
  · simp [hi]

/-- A value that fits the span written is read back (20_memory.md R45). -/
theorem memRead_memWrite_same (hmem : mem.wf) {v : Nat} (hv : v < 2 ^ n) :
    memRead (memWrite mem p n v) p n = v := by
  simpa [Nat.mod_eq_of_lt hv] using memRead_memWrite (p := p) hmem v (j := 0) (k := n) (n := n) (by omega)

/-- Settles O18. -/
theorem memWriteReadsBack : Obligations.MemWriteReadsBack :=
  fun _ _ _ v hmem hv => ⟨memRead_memWrite_same hmem hv, fun _ hk => bitRead_memWrite hmem v hk,
    fun _ hq => bitRead_putBits_outside hmem (by rwa [bitsOf_length])⟩

/-- A whole byte is the eight bits at its position. -/
theorem memRead_byte (mem : Memory) (a : Nat) : memRead mem (8 * a) 8 = (mem.read a).toNat := by
  rw [memRead_within_byte mem (by omega), show 8 * a / 8 = a by omega, show 8 - 8 * a % 8 - 8 = 0 by omega,
    Nat.shiftRight_zero, Nat.and_two_pow_sub_one_of_lt_two_pow (mem.read a).isLt]

/-- Byte `j` of a value written at a byte's first bit: the most significant one first (20_memory.md R41). -/
theorem read_memWrite_aligned (hmem : mem.wf) (hp : p % 8 = 0) (v : Nat) {j : Nat} (hj : 8 * j + 8 ≤ n) :
    (memWrite mem p n v).read (p / 8 + j) = BitVec.ofNat 8 (v >>> (n - 8 * j - 8)) := by
  refine BitVec.eq_of_toNat_eq ?_
  rw [← memRead_byte, show 8 * (p / 8 + j) = p + 8 * j by omega, memRead_memWrite hmem v hj, BitVec.toNat_ofNat]

/-! ## Appends, and reading them back -/

variable {s t : State} {m : Nat} {c d : Ctx}

/-- Every context of a state within the invariant is within its own. -/
theorem ctx_wf_of_inv (hs : s.inv) (hc : s.ctxs[m]? = some c) : c.wf s.params := by
  obtain ⟨-, -, hctxs, -⟩ := hs
  exact hctxs c (List.mem_of_getElem? hc)

/-- The context with the `n` bits of `v` written at the cursor, which moves past them (40_append_ops.md R81 to R83). -/
def Ctx.written (c : Ctx) (n v : Nat) : Ctx :=
  { c with buf := memWrite c.buf c.bitCount n v, bitCount := c.bitCount + n }

/-- An append of a value that fits writes it at the cursor of the context named. -/
theorem appendCommand_of_room {v : Nat} (hc : s.ctxs[m]? = some c) (hroom : c.bitCount + n ≤ s.params.capBits) :
    appendCommand m (bitsOf n v) s = .next ((s.setCtx m (c.written n v)).respond .done) := by
  have happend : c.append s.params.capBits (bitsOf n v) = some (c.written n v) :=
    Ctx.append_eq_some.2 (by rw [bitsOf_length]; exact ⟨hroom, rfl⟩)
  simp only [appendCommand, withCtx_of_some hc, happend, answer_eq_next]

/-- The context named reads back after it is written. -/
theorem getElem?_setCtx_same (hc : s.ctxs[m]? = some c) (d : Ctx) : (s.setCtx m d).ctxs[m]? = some d := by
  obtain ⟨hlt, -⟩ := List.getElem?_eq_some_iff.1 hc
  rw [State.getElem?_setCtx, if_pos ⟨rfl, hlt⟩]

/-- An append that fits, at a byte-aligned cursor, leaves the value's bytes in big-endian order. -/
theorem appendCommand_bytes (hs : s.inv) (hc : s.ctxs[m]? = some c) (hp : c.bitCount % 8 = 0) (v : BitVec n)
    (hroom : c.bitCount + n ≤ s.params.capBits) :
    ∃ t d, appendCommand m (bitsOf n v.toNat) s = .next t ∧ t.ctxs[m]? = some d ∧
      ∀ j, 8 * j + 8 ≤ n → d.buf.read (c.bitCount / 8 + j) = v.extractLsb' (n - 8 * j - 8) 8 := by
  obtain ⟨-, -, hmem, -⟩ := ctx_wf_of_inv hs hc
  exact ⟨_, _, appendCommand_of_room hc hroom, getElem?_setCtx_same hc _,
    fun _ hj => read_memWrite_aligned hmem hp _ hj⟩

/-- Settles O23, byte by byte. -/
theorem alignedAppendsStoreBigEndianBytes : Obligations.AlignedAppendsStoreBigEndianBytes := by
  intro s m c hs hc hp
  refine ⟨fun v hroom => ?_, fun v hroom => ?_, fun v hroom => ?_⟩
  all_goals
    obtain ⟨t, d, hexec, hd, hbyte⟩ := appendCommand_bytes hs hc hp v hroom
    refine ⟨t, d, hexec, hd, ?_⟩
  · exact (hbyte 0 (by decide)).trans BitVec.extractLsb'_eq_self
  · exact ⟨hbyte 0 (by decide), hbyte 1 (by decide)⟩
  · exact ⟨hbyte 0 (by decide), hbyte 1 (by decide), hbyte 2 (by decide), hbyte 3 (by decide)⟩

/-- The response word of a successful extraction (30_encoding.md R61, R62). -/
theorem extracted_word (pos data : Nat) :
    (extracted pos data).word = okWord false (BitVec.ofNat 16 pos) (BitVec.ofNat 32 data) := rfl

/-- An append that fits, and the extraction of as many bits from where the cursor stood: the value comes back. -/
theorem appendCommand_then_extract (hs : s.inv) (hc : s.ctxs[m]? = some c) (v : BitVec n)
    (hroom : c.bitCount + n ≤ s.params.capBits) :
    ∃ t, appendCommand m (bitsOf n v.toNat) s = .next t ∧
      withCtx m t (fun d => extract d t c.bitCount n fun data => extracted (c.bitCount + n) data) = .next
        { t with responses := t.responses ++ [okWord false (BitVec.ofNat 16 (c.bitCount + n)) (v.setWidth 32)] } := by
  obtain ⟨-, -, hmem, -⟩ := ctx_wf_of_inv hs hc
  refine ⟨_, appendCommand_of_room hc hroom, ?_⟩
  have hd : ((s.setCtx m (c.written n v.toNat)).respond .done).ctxs[m]? = some (c.written n v.toNat) :=
    getElem?_setCtx_same hc _
  have hread : memRead (c.written n v.toNat).buf c.bitCount n = v.toNat := memRead_memWrite_same hmem v.isLt
  rw [withCtx_of_some hd, extract_ok _ (Nat.le_refl _) hroom, hread, State.respond, extracted_word, BitVec.ofNat_toNat]

/-- Settles O24: each GET is the extraction of its width. -/
theorem appendThenExtractRoundTrip : Obligations.AppendThenExtractRoundTrip := by
  intro s m c hs hc
  refine ⟨appendCommand_then_extract hs hc, appendCommand_then_extract hs hc, fun v hroom => ?_⟩
  have hround := appendCommand_then_extract hs hc v hroom
  rw [BitVec.setWidth_eq] at hround
  exact hround

/-! ## The commands that only read -/

/-- `t` is `s` with one more response. -/
def OnlyResponds (s t : State) : Prop := ∃ r : Response, t = s.respond r

theorem OnlyResponds.of_answer {r : Response} (h : answer s r = .next t) : OnlyResponds s t :=
  ⟨r, by simpa using h.symm⟩

theorem withCtx_onlyResponds {f : Ctx → Host.Outcome State Fault Refusal} (h : withCtx m s f = .next t)
    (hf : ∀ c, f c = .next t → OnlyResponds s t) : OnlyResponds s t := by
  obtain ⟨-, ht⟩ | ⟨c, -, ht⟩ := withCtx_next h
  · exact ⟨_, ht⟩
  · exact hf c ht

theorem withKind_onlyResponds {k : Kind → Host.Outcome State Fault Refusal} (h : withKind s k = .next t)
    (hk : ∀ kind, k kind = .next t → OnlyResponds s t) : OnlyResponds s t := by
  obtain ⟨-, ht⟩ | ⟨kind, -, -, ht⟩ := withKind_next h
  · exact ⟨_, ht⟩
  · exact hk kind ht

theorem extract_onlyResponds {pos : Nat} {k : Nat → Response} (h : extract c s pos n k = .next t) :
    OnlyResponds s t := by
  obtain ⟨-, -, ht⟩ | ⟨-, -, ht⟩ | ⟨-, -, ht⟩ := extract_next h <;> exact ⟨_, ht⟩

theorem execGetchunk_onlyResponds {pos len : Nat} (h : execGetchunk m pos len s = .next t) : OnlyResponds s t :=
  withCtx_onlyResponds h fun c h => by
    split at h
    · exact .of_answer h
    · exact extract_onlyResponds h

theorem execRdctx_onlyResponds {sel : Nat} (h : execRdctx m sel s = .next t) : OnlyResponds s t :=
  withCtx_onlyResponds h fun c h => by split at h <;> exact .of_answer h

theorem execChkcorr_onlyResponds (h : execChkcorr m s = .next t) : OnlyResponds s t :=
  withCtx_onlyResponds h fun c h => withKind_onlyResponds h fun kind h => by
    split at h
    · exact .of_answer h
    · split at h
      · cases h
      · exact .of_answer h

theorem execGetcfg_onlyResponds {j : Nat} (h : execGetcfg j s = .next t) : OnlyResponds s t := by
  unfold execGetcfg at h
  split at h <;> exact .of_answer h

/-- No command of 20_memory.md R48's list has a side effect. -/
theorem exec_onlyResponds {i : Instr} (hi : readsOnly i = true) (h : exec i s = .next t) : OnlyResponds s t := by
  cases i with
  | getbit | get8 | get16 | get32 => exact withCtx_onlyResponds h fun _ => extract_onlyResponds
  | getchunk => exact execGetchunk_onlyResponds h
  | minsize => exact .of_answer h
  | rdctx => exact execRdctx_onlyResponds h
  | chkcorr => exact execChkcorr_onlyResponds h
  | chklen => exact withKind_onlyResponds h fun _ => .of_answer
  | getcfg => exact execGetcfg_onlyResponds h
  | addbit | add8 | add16 | add32 | preptx | preprx | rxpre | rxseal | appwr | apphdr | addcorr | pktreg | eccreg
  | setcfg => cases hi

/-- Settles O56. -/
theorem readingCommandsChangeNothing : Obligations.ReadingCommandsChangeNothing := by
  intro i s t hi h
  obtain ⟨r, ht⟩ := exec_onlyResponds hi h
  exact ⟨r.word, ht⟩

/-! ## Appended bits stay -/

/-- The cursor of `d` is not before that of `c`, and the bits below the latter are alike (20_memory.md R40). -/
def Ctx.Extends (c d : Ctx) : Prop :=
  c.bitCount ≤ d.bitCount ∧ ∀ q, q < c.bitCount → bitRead d.buf q = bitRead c.buf q

theorem Ctx.Extends.of_same (hbuf : d.buf = c.buf) (hcount : d.bitCount = c.bitCount) : c.Extends d :=
  ⟨hcount.ge, fun _ _ => by rw [hbuf]⟩

/-- Bits written at the cursor are above every bit appended before. -/
theorem Ctx.Extends.of_putBits (hmem : c.buf.wf) {bs : List Bool} (hbuf : d.buf = putBits c.buf c.bitCount bs)
    (hcount : d.bitCount = c.bitCount + bs.length) : c.Extends d :=
  ⟨by omega, fun _ hq => hbuf ▸ bitRead_putBits_outside hmem (.inl hq)⟩

/-- Every write of a context but the two that reset it extends it. -/
theorem CtxWrite.extends {i : Instr} (h : CtxWrite s m i c d) (hmem : c.buf.wf) (hprx : i ≠ .preprx m)
    (hptx : i ≠ .preptx m) : c.Extends d := by
  cases h with
  | append bs _ ha =>
    obtain ⟨-, rfl⟩ := Ctx.append_eq_some.1 ha
    exact .of_putBits hmem rfl rfl
  | reset => exact absurd rfl hprx
  | frame | drawn => exact absurd rfl hptx
  | preamble | sealed => exact .of_same rfl rfl
  | trailer kind _ ha =>
    obtain ⟨-, rfl⟩ := addTrailer_eq_some.1 ha
    exact .of_putBits hmem rfl (by rw [bitsOf_length])

/-- Settles O57: a command leaves a context as it was or makes one of the writes of `CtxWrite`. -/
theorem appendedBitsStay : Obligations.AppendedBitsStay := by
  intro i s t m c d hs h hc hd hprx hptx
  obtain ⟨-, -, hmem, -⟩ := ctx_wf_of_inv hs hc
  obtain ⟨u, r, he, rfl⟩ := exec_answers h
  obtain rfl | hw := he.ctx_cases hc hd
  · exact Ctx.Extends.of_same rfl rfl
  · exact hw.extends hmem hprx hptx

end Sys2Proof.Machine
end

section
/-! The command word (30_encoding.md R60 to R65). A word is its four fields and `encode` fills them, so decoding gives
the command back. What `decode` reads is each field cut to the bits R62 gives the command, so encoding a decoded command
keeps just these bits, and words alike in them decode alike. -/

namespace Sys2Proof

open Machine

variable {w : Word} {i : Instr} {n : Nat}

/-! ## The fields of a word -/

/-- A word is its four fields, put together (30_encoding.md R60). -/
theorem fields_append (w : Word) : opcodeField w ++ msgField w ++ posField w ++ dataField w = w := by
  simp only [opcodeField, msgField, posField, dataField,
    BitVec.extractLsb'_append_extractLsb'_eq_extractLsb', BitVec.extractLsb'_eq_self]

theorem posLow_eq (w : Word) : posLow w = (posField w).setWidth 8 :=
  (BitVec.setWidth_extractLsb'_of_le (by decide)).symm

theorem dataByte_eq (w : Word) : dataByte w = (dataField w).setWidth 8 :=
  (BitVec.setWidth_extractLsb'_of_le (by decide)).symm

theorem dataHalf_eq (w : Word) : dataHalf w = (dataField w).setWidth 16 :=
  (BitVec.setWidth_extractLsb'_of_le (by decide)).symm

theorem dataBit_eq (w : Word) : dataBit w = (dataField w).getLsbD 0 := by simp [dataBit, dataField]

theorem ofBool_dataBit (w : Word) : BitVec.ofBool (dataBit w) = (dataField w).setWidth 1 := by
  rw [dataBit_eq, BitVec.setWidth_one]

/-! ## The fields of an encoded command -/

theorem msgField_encode (i : Instr) : msgField (encode i) = BitVec.ofNat 8 (msgOf i) := by
  rw [encode, msgField, BitVec.extractLsb'_append_eq_of_le (by decide), BitVec.extractLsb'_append_eq_of_le (by decide),
    BitVec.extractLsb'_append_eq_right]

theorem posField_encode (i : Instr) : posField (encode i) = BitVec.ofNat 16 (posOf i) := by
  rw [encode, posField, BitVec.extractLsb'_append_eq_of_le (by decide), BitVec.extractLsb'_append_eq_right]

theorem dataField_encode (i : Instr) : dataField (encode i) = dataOf i := BitVec.extractLsb'_append_eq_right

theorem posLow_encode (i : Instr) : posLow (encode i) = BitVec.ofNat 8 (posOf i) := by
  rw [posLow_eq, posField_encode, BitVec.setWidth_ofNat_of_le (by decide)]

theorem dataByte_encode (i : Instr) : dataByte (encode i) = (dataOf i).setWidth 8 := by
  rw [dataByte_eq, dataField_encode]

theorem dataHalf_encode (i : Instr) : dataHalf (encode i) = (dataOf i).setWidth 16 := by
  rw [dataHalf_eq, dataField_encode]

theorem dataBit_encode_addbit (m : Nat) (b : Bool) : dataBit (encode (.addbit m b)) = b := by
  rw [dataBit_eq, dataField_encode, dataOf]
  simp

/-! ## Operands that fit their fields -/

@[simp] theorem fitsHandle_iff : fitsHandle n = true ↔ n < 2 ^ 8 := decide_eq_true_iff
@[simp] theorem fitsPos_iff : fitsPos n = true ↔ n < 2 ^ 16 := decide_eq_true_iff
@[simp] theorem fitsSmall_iff : fitsSmall n = true ↔ n < 2 ^ 8 := decide_eq_true_iff
@[simp] theorem fitsHalf_iff : fitsHalf n = true ↔ n < 2 ^ 16 := decide_eq_true_iff

/-- The handle and the position operand of a well-formed command fit the fields of R60. -/
theorem msgOf_posOf_lt (h : i.wf = true) : msgOf i < 2 ^ 8 ∧ posOf i < 2 ^ 16 := by
  cases i <;> simp [Instr.wf, msgOf, posOf] at h ⊢ <;> omega

theorem toNat_msgField_encode (h : i.wf = true) : (msgField (encode i)).toNat = msgOf i := by
  rw [msgField_encode, BitVec.toNat_ofNat, Nat.mod_eq_of_lt (msgOf_posOf_lt h).1]

theorem toNat_posField_encode (h : i.wf = true) : (posField (encode i)).toNat = posOf i := by
  rw [posField_encode, BitVec.toNat_ofNat, Nat.mod_eq_of_lt (msgOf_posOf_lt h).2]

/-! ## Decoding an encoded command -/

/-- Settles O1: each command's operands come back from the fields they were put in. -/
theorem decodeOfEncodeIsTheCommand : Obligations.DecodeOfEncodeIsTheCommand := by
  intro i h
  have hop : opcodeField (encode i) = opcodeOf i := Laws.EncodesOpcode.opcodeField_encode i
  have hmsg := toNat_msgField_encode h
  have hpos := toNat_posField_encode h
  cases i with
  | getbit | get8 | get16 | get32 | preptx | preprx | rxpre | rxseal | addcorr | chkcorr | chklen | pktreg | eccreg =>
    simp only [decode, hop, opcodeOf, hmsg, hpos, msgOf, posOf]
  | addbit => simp only [decode, hop, opcodeOf, hmsg, msgOf, dataBit_encode_addbit]
  | add8 | add16 | add32 | appwr =>
    simp [decode, hop, opcodeOf, hmsg, hpos, msgOf, posOf, dataByte_encode, dataHalf_encode, dataField_encode, dataOf]
  | getchunk m pos len =>
    obtain ⟨-, hlen⟩ : _ ∧ len < 2 ^ 8 := by simpa [Instr.wf] using h
    simpa [decode, hop, opcodeOf, hmsg, hpos, msgOf, posOf, dataByte_encode, dataOf] using hlen
  | minsize | apphdr =>
    have hlen := fitsHalf_iff.1 h
    simpa [decode, hop, opcodeOf, posOf, posLow_encode, dataHalf_encode, dataOf] using hlen
  | rdctx m sel =>
    obtain ⟨-, hsel⟩ : _ ∧ sel < 2 ^ 8 := by simpa [Instr.wf] using h
    simpa [decode, hop, opcodeOf, hmsg, msgOf, posOf, posLow_encode] using hsel
  | setcfg | getcfg =>
    have hreg := fitsSmall_iff.1 h
    simpa [decode, hop, opcodeOf, posOf, posLow_encode, dataField_encode, dataOf] using hreg

/-! ## The bits a command reads -/

/-- How many bits of `MSG` are an operand of the command (30_encoding.md R62). -/
def msgWidth : Instr → Nat
  | .minsize .. | .appwr .. | .apphdr .. | .chklen | .pktreg | .eccreg | .setcfg .. | .getcfg .. => 0
  | _ => 8

/-- How many low bits of `POS` are an operand of the command (30_encoding.md R62). -/
def posWidth : Instr → Nat
  | .getbit .. | .getchunk .. | .get8 .. | .get16 .. | .get32 .. | .appwr .. => 16
  | .apphdr .. | .rdctx .. | .setcfg .. | .getcfg .. => 8
  | _ => 0

/-- How many low bits of `DATA` are an operand of the command (30_encoding.md R62). -/
def dataWidth : Instr → Nat
  | .addbit .. => 1
  | .add8 .. | .getchunk .. | .appwr .. => 8
  | .add16 .. | .minsize .. | .apphdr .. => 16
  | .add32 .. | .setcfg .. => 32
  | _ => 0

/-- The mask of the low `k` bits of a field of `n` bits. -/
def lowMask (n k : Nat) : BitVec n := (BitVec.allOnes k).setWidth n

theorem and_lowMask (x : BitVec n) (k : Nat) : x &&& lowMask n k = (x.setWidth k).setWidth n := by
  ext j hj
  simp [lowMask, BitVec.getLsbD_eq_getElem hj, Bool.and_comm]

theorem setWidth_setWidth_zero (x : BitVec n) : (x.setWidth 0).setWidth n = 0 := by
  ext j hj
  simp

/-- The bits that select the command or form an operand of it. -/
def namedBits (i : Instr) : Word :=
  lowMask 8 8 ++ lowMask 8 (msgWidth i) ++ lowMask 16 (posWidth i) ++ lowMask 32 (dataWidth i)

/-- The model's table gives each command the same bits. -/
theorem namedBits_mem_opcodeMasks (i : Instr) : (opcodeOf i, namedBits i) ∈ opcodeMasks := by
  cases i <;> simp only [opcodeOf, namedBits, msgWidth, posWidth, dataWidth] <;> decide

/-- A word masked to the named bits is its fields, each cut to the bits read. -/
theorem and_namedBits (w : Word) (i : Instr) : w &&& namedBits i = opcodeField w
    ++ ((msgField w).setWidth (msgWidth i)).setWidth 8 ++ ((posField w).setWidth (posWidth i)).setWidth 16
    ++ ((dataField w).setWidth (dataWidth i)).setWidth 32 := by
  conv_lhs => rw [← fields_append w, namedBits]
  rw [BitVec.and_append, BitVec.and_append, BitVec.and_append]
  simp only [and_lowMask, BitVec.setWidth_eq]

/-! ## What a decoded command holds -/

/-- The opcode and the operands of a decoded command are the fields of its word, each cut to the bits read. There is one
goal for each row of the opcode map and each field. -/
theorem fields_of_decode (h : decode w = .ok i) : opcodeOf i = opcodeField w
    ∧ BitVec.ofNat 8 (msgOf i) = ((msgField w).setWidth (msgWidth i)).setWidth 8
    ∧ BitVec.ofNat 16 (posOf i) = ((posField w).setWidth (posWidth i)).setWidth 16
    ∧ dataOf i = ((dataField w).setWidth (dataWidth i)).setWidth 32 := by
  unfold decode at h
  split at h <;> cases h
  all_goals
    refine ⟨by symm; assumption, ?_, ?_, ?_⟩
    all_goals simp only [msgOf, posOf, dataOf, msgWidth, posWidth, dataWidth, posLow_eq, dataByte_eq, dataHalf_eq,
      ofBool_dataBit, BitVec.ofNat_toNat, setWidth_setWidth_zero, BitVec.setWidth_eq, BitVec.ofNat_eq_ofNat]

/-- The operands of a decoded command fit, since each is the value of so many bits. -/
theorem wf_of_decode (h : decode w = .ok i) : i.wf = true := by
  unfold decode at h
  split at h <;> cases h
  all_goals simp only [Instr.wf, Bool.and_eq_true, fitsHandle_iff, fitsPos_iff, fitsSmall_iff, fitsHalf_iff,
    BitVec.isLt, and_self]

theorem encode_of_decode (h : decode w = .ok i) : encode i = w &&& namedBits i := by
  obtain ⟨hop, hmsg, hpos, hdata⟩ := fields_of_decode h
  rw [and_namedBits, encode, hop, hmsg, hpos, hdata]

theorem namedBits_mem_of_decode (h : decode w = .ok i) : (opcodeField w, namedBits i) ∈ opcodeMasks := by
  obtain ⟨hop, -⟩ := fields_of_decode h
  exact hop ▸ namedBits_mem_opcodeMasks i

/-- Settles O2. -/
theorem encodeOfDecodeKeepsTheNamedBits : Obligations.EncodeOfDecodeKeepsTheNamedBits :=
  fun _ i h => ⟨wf_of_decode h, namedBits i, namedBits_mem_of_decode h, encode_of_decode h⟩

/-! ## The opcode map -/

theorem opcodes_nodup : (opcodeMasks.map Prod.fst).Nodup := by decide

/-- Settles O4: `decode` run at each of the 24 opcodes. -/
theorem opcodeSelectsTheCommandAndItsOperands : Obligations.OpcodeSelectsTheCommandAndItsOperands := by
  refine ⟨opcodes_nodup, rfl, fun w => ?_⟩
  and_intros
  all_goals
    intro hop
    replace hop : opcodeField w = _ := hop
    simp only [decode, hop] <;> rfl

/-- A word decodes exactly where its opcode is one of the 24 (30_encoding.md R64). -/
theorem exists_decode_iff : (∃ i, decode w = .ok i) ↔ opcodeField w ∈ opcodeMasks.map Prod.fst := by
  constructor
  · rintro ⟨i, h⟩
    exact List.mem_map_of_mem (namedBits_mem_of_decode h)
  · intro h
    simp only [opcodeMasks, List.map_cons, List.map_nil, List.mem_cons, List.not_mem_nil, or_false] at h
    casesm* _ ∨ _
    all_goals exact ⟨_, by simp only [decode, *]; rfl⟩

/-! ## Ignored bits -/

theorem opcodeField_and_namedBits (w : Word) (i : Instr) : opcodeField (w &&& namedBits i) = opcodeField w := by
  rw [and_namedBits, Laws.EncodesOpcode.opcodeField_append]

/-- The mask that the table holds for a word's opcode is that of the command the word decodes to. -/
theorem exists_decode_of_mem_opcodeMasks {mask : Word} (hm : (opcodeField w, mask) ∈ opcodeMasks) :
    ∃ i, decode w = .ok i ∧ mask = namedBits i := by
  obtain ⟨i, hi⟩ := exists_decode_iff.2 (List.mem_map_of_mem (f := Prod.fst) hm)
  have hrow := List.inj_on_of_nodup_map opcodes_nodup hm (namedBits_mem_of_decode hi) rfl
  exact ⟨i, hi, congrArg Prod.snd hrow⟩

/-- What is left of a word in the named bits decodes as the word: it is the encoding of the command read. -/
theorem decode_and_mask {mask : Word} (hm : (opcodeField w, mask) ∈ opcodeMasks) : decode (w &&& mask) = decode w := by
  obtain ⟨i, hi, rfl⟩ := exists_decode_of_mem_opcodeMasks hm
  rw [← encode_of_decode hi, hi, decodeOfEncodeIsTheCommand i (wf_of_decode hi)]

/-- Two words alike in the bits named for the command of the one decode alike. -/
theorem decode_congr {w' mask : Word} (hm : (opcodeField w, mask) ∈ opcodeMasks) (hw : w &&& mask = w' &&& mask) :
    decode w = decode w' := by
  have hop : opcodeField w = opcodeField w' := by
    obtain ⟨i, -, rfl⟩ := exists_decode_of_mem_opcodeMasks hm
    rw [← opcodeField_and_namedBits w i, hw, opcodeField_and_namedBits]
  rw [← decode_and_mask hm, hw, decode_and_mask (hop ▸ hm)]

theorem step_offer (s : State) (w : Word) : step (s.offer w) = runWord w s := rfl

/-- Settles O3: a step depends on the word it takes only through the command it decodes to. -/
theorem ignoredBitsChangeNothing : Obligations.IgnoredBitsChangeNothing := by
  intro w w' mask s hm hw
  rw [step_offer, step_offer, runWord, decode_congr hm hw, runWord]

/-- Settles O5. -/
theorem sampleWordsDecode : Obligations.SampleWordsDecode := by
  unfold Obligations.SampleWordsDecode
  decide

end Sys2Proof
end

section
/-! The response word (30_encoding.md R61): where its fields stand, and the form each command gives them. Each shared
operation of the commands has one rule for the form; a command's form follows from the operations it is made of. -/

namespace Sys2Proof.Machine

/-! ## The layout of a response word -/

theorem causeCode_some (cause : Cause) : causeCode (some cause) = causeNumber cause := by cases cause <;> rfl

/-- The `CAUSE` bits of a response word. -/
theorem word_cause (r : Response) : r.word.extractLsb 62 60 = causeCode r.cause := by
  rw [Response.word, BitVec.extractLsb]
  iterate 4 rw [BitVec.extractLsb'_append_eq_of_le (by decide)]
  exact BitVec.extractLsb'_append_eq_right

/-- Settles O8: a field is reached over the fields below it. -/
theorem responseWordLayout : Obligations.ResponseWordLayout := by
  intro r
  refine ⟨?ok, ?cause, ?unused, ?flag, ?pos, BitVec.extractLsb'_append_eq_right⟩
  case ok | flag => simp only [Response.word, BitVec.getLsbD_append]; simp
  case cause =>
    rw [word_cause]
    cases r.cause with
    | none => rfl
    | some cause => exact causeCode_some cause
  case unused =>
    rw [Response.word, BitVec.extractLsb]
    iterate 3 rw [BitVec.extractLsb'_append_eq_of_le (by decide)]
    exact BitVec.extractLsb'_append_eq_right
  case pos =>
    rw [Response.word, BitVec.extractLsb, BitVec.extractLsb'_append_eq_of_le (by decide)]
    exact BitVec.extractLsb'_append_eq_right

/-! ## The form of a command's response -/

/-- What 30_encoding.md R61, R62 and 60_exceptions.md R167 say of a response of the command. -/
structure Response.HasFormOf (r : Response) (i : Instr) : Prop where
  ok_iff : r.ok = true ↔ r.cause = none
  cause : mayReport i r.cause
  flag : r.flag = true → ∃ m, i = .chkcorr m
  failed : r.ok = false → r.flag = false ∧ r.data = 0
  pos : extractSpan i = none → r.pos = 0

/-- `t` is a state after one more response, of the command's form. -/
def RespondsInForm (i : Instr) (s t : State) : Prop :=
  ∃ r : Response, t.responses = s.responses ++ [r.word] ∧ r.HasFormOf i

variable {i : Instr} {s t u : State} {m : Nat} {c : Ctx} {cause : Cause}

/-! A success has no cause, and a failure no result, so each rule has to say only what is particular to it. -/

theorem Response.HasFormOf.of_success {r : Response} (hok : r.ok = true) (hcause : r.cause = none)
    (hflag : r.flag = true → ∃ m, i = .chkcorr m) (hpos : extractSpan i = none → r.pos = 0) : r.HasFormOf i where
  ok_iff := by simp [hok, hcause]
  cause := by rw [hcause]; trivial
  flag := hflag
  failed := by simp [hok]
  pos := hpos

theorem Response.HasFormOf.done : Response.done.HasFormOf i := .of_success rfl rfl nofun fun _ => rfl

theorem Response.HasFormOf.withData (data : Nat) : (withData data).HasFormOf i := .of_success rfl rfl nofun fun _ => rfl

theorem Response.HasFormOf.failed_of_mem (h : cause ∈ possibleCauses i) : (Response.failed cause).HasFormOf i where
  ok_iff := by simp [Response.failed]
  cause := h
  flag := nofun
  failed _ := ⟨rfl, rfl⟩
  pos _ := rfl

theorem Response.HasFormOf.extractFailed {pos : Nat} (hi : extractSpan i ≠ none) (h : cause ∈ possibleCauses i) :
    (extractFailed cause pos).HasFormOf i where
  ok_iff := by simp [Machine.extractFailed, Response.failed]
  cause := h
  flag := nofun
  failed _ := ⟨rfl, rfl⟩
  pos := fun hnone => absurd hnone hi

/-! ## One rule per shared operation

The defaults show that the state answered holds the responses so far, and that the cause stands in the command's row of
R167's table. -/

theorem RespondsInForm.of_answer {r : Response} (h : answer u r = .next t) (hr : r.HasFormOf i)
    (hu : u.responses = s.responses := by rfl) : RespondsInForm i s t := by
  cases h
  exact ⟨r, by rw [State.respond_responses, hu], hr⟩

theorem RespondsInForm.of_done (h : answer u .done = .next t) (hu : u.responses = s.responses := by rfl) :
    RespondsInForm i s t := .of_answer h .done hu

theorem RespondsInForm.of_failWith (h : failWith u cause = .next t)
    (hcause : cause ∈ possibleCauses i := by simp [possibleCauses]) (hu : u.responses = s.responses := by rfl) :
    RespondsInForm i s t := .of_answer h (.failed_of_mem hcause) hu

theorem withCtx_form {f : Ctx → Host.Outcome State Fault Refusal} (h : withCtx m s f = .next t)
    (hf : ∀ c, f c = .next t → RespondsInForm i s t)
    (hillegal : .illegal ∈ possibleCauses i := by simp [possibleCauses]) : RespondsInForm i s t := by
  obtain ⟨-, rfl⟩ | ⟨c, -, ht⟩ := withCtx_next h
  · exact .of_failWith rfl hillegal
  · exact hf c ht

theorem withKind_form {k : Kind → Host.Outcome State Fault Refusal} (h : withKind s k = .next t)
    (hk : ∀ kind, k kind = .next t → RespondsInForm i s t)
    (hreg : .registration ∈ possibleCauses i := by simp [possibleCauses]) : RespondsInForm i s t := by
  obtain ⟨-, rfl⟩ | ⟨kind, -, -, ht⟩ := withKind_next h
  · exact .of_failWith rfl hreg
  · exact hk kind ht

theorem appendCommand_form {bs : List Bool} (h : appendCommand m bs s = .next t)
    (hcauses : possibleCauses i = [.capacity, .illegal] := by rfl) : RespondsInForm i s t := by
  refine withCtx_form h (fun c h => ?_) (by simp [hcauses])
  split at h
  · exact .of_failWith h (by simp [hcauses])
  · exact .of_done h

theorem extract_form {pos n next : Nat} (h : extract c s pos n (fun data => extracted next data) = .next t)
    (hi : extractSpan i ≠ none := by nofun)
    (hcauses : possibleCauses i = [.capacity, .bounds, .illegal] := by rfl) : RespondsInForm i s t := by
  obtain ⟨-, -, rfl⟩ | ⟨-, -, rfl⟩ | ⟨-, -, rfl⟩ := extract_next h
  · exact .of_answer rfl (.of_success rfl rfl nofun fun hnone => absurd hnone hi)
  · exact .of_answer rfl (.extractFailed hi (by simp [hcauses]))
  · exact .of_answer rfl (.extractFailed hi (by simp [hcauses]))

/-- The causes with which the frame of a PREPTX can fail (42_frame_ops.md R108). -/
theorem buildFrame_failed (h : buildFrame s = .failed cause) : cause = .capacity ∨ cause = .registration := by
  rcases buildFrame_cases s with
    ⟨-, hb⟩ | ⟨d, -, ⟨-, hb⟩ | ⟨-, -, hb⟩ | ⟨-, -, -, hb⟩ | ⟨k, -, -, -, ⟨-, hb⟩ | ⟨e, -, hb⟩⟩⟩
  all_goals rw [hb] at h; cases h
  · exact .inl rfl
  · exact .inr rfl
  · exact .inl rfl

/-! ## Each command -/

theorem execGetchunk_form {pos len : Nat} (h : execGetchunk m pos len s = .next t) :
    RespondsInForm (.getchunk m pos len) s t :=
  withCtx_form h fun c h => by
    split at h
    · exact .of_answer h (.extractFailed nofun (by simp [possibleCauses]))
    · exact extract_form h

theorem execPreptx_form (h : execPreptx m s = .next t) : RespondsInForm (.preptx m) s t :=
  withCtx_form h fun c h => by
    split at h
    · split at h
      · exact .of_done h
      · next cause hb =>
        refine .of_failWith h ?_
        obtain rfl | rfl := buildFrame_failed hb <;> simp [possibleCauses]
      · cases h
    · exact .of_failWith h

theorem execRdctx_form {sel : Nat} (h : execRdctx m sel s = .next t) : RespondsInForm (.rdctx m sel) s t :=
  withCtx_form h fun c h => by
    split at h
    · exact .of_failWith h
    · exact .of_answer h (.withData _)

theorem execAddcorr_form (h : execAddcorr m s = .next t) : RespondsInForm (.addcorr m) s t :=
  withCtx_form h fun c h => withKind_form h fun kind h => by
    split at h
    · exact .of_failWith h
    · exact .of_done h

/-- CHKCORR is the one command that may set the flag. -/
theorem execChkcorr_form (h : execChkcorr m s = .next t) : RespondsInForm (.chkcorr m) s t :=
  withCtx_form h fun c h => withKind_form h fun kind h => by
    split at h
    · exact .of_failWith h
    · split at h
      · cases h
      · exact .of_answer h (.of_success rfl rfl (fun _ => ⟨m, rfl⟩) fun _ => rfl)

theorem execSetcfg_form {j : Nat} {v : BitVec 32} (h : execSetcfg j v s = .next t) :
    RespondsInForm (.setcfg j v) s t := by
  unfold execSetcfg at h
  split at h
  · exact .of_failWith h
  · split at h
    · exact .of_failWith h
    · split at h <;> exact .of_done h

/-- A command that answers a next state has produced one response, of its form. -/
theorem exec_form (h : exec i s = .next t) : RespondsInForm i s t := by
  cases i with
  | addbit | add8 | add16 | add32 => exact appendCommand_form h
  | getbit | get8 | get16 | get32 => exact withCtx_form h fun _ h => extract_form h
  | getchunk => exact execGetchunk_form h
  | preptx => exact execPreptx_form h
  | preprx | rxpre | rxseal => exact withCtx_form h fun _ h => .of_done h
  | minsize => exact .of_answer h (.withData _)
  | rdctx => exact execRdctx_form h
  | addcorr => exact execAddcorr_form h
  | chkcorr => exact execChkcorr_form h
  | chklen => exact withKind_form h fun _ h => .of_answer h (.withData _)
  | setcfg => exact execSetcfg_form h
  | appwr | apphdr | pktreg | eccreg =>
    simp only [exec, execAppwr, execApphdr, execPktreg, execEccreg] at h
    split at h
    · exact .of_failWith h
    · exact .of_done h
  | getcfg =>
    simp only [exec, execGetcfg] at h
    split at h
    · exact .of_failWith h
    · exact .of_answer h (.withData _)

/-- Settles O10. -/
theorem responsesHaveTheFormOfTheirCommand : Obligations.ResponsesHaveTheFormOfTheirCommand := by
  intro i s t h
  obtain ⟨r, hr, hok, hcause, hflag, hfailed, hpos⟩ := exec_form h
  exact ⟨r, hr, hok, hcause, hflag, hfailed, hpos⟩

end Sys2Proof.Machine
end

section
/-! The appends (40_append_ops.md): one rule for a run of bits that fits and one for a run that does not serve ADDBIT and
the three wide commands alike, since every one of them is `appendCommand` of its bits. -/

namespace Sys2Proof.Machine

variable {i : Instr} {s : State} {m n : Nat} {c d : Ctx} {bs : List Bool}

/-! ## What the shared append answers -/

/-- A run that the context takes is written there, with a plain success. -/
theorem appendCommand_of_append (hc : s.ctxs[m]? = some c) (ha : c.append s.params.capBits bs = some d) :
    appendCommand m bs s = .next ((s.setCtx m d).respond .done) := by
  simp only [appendCommand, withCtx_of_some hc, ha, answer_eq_next]

/-- A run that does not fit is a CAPACITY failure before any bit is written. -/
theorem appendCommand_of_full (hc : s.ctxs[m]? = some c) (hfull : s.params.capBits < c.bitCount + bs.length) :
    appendCommand m bs s = .next (s.respond (.failed .capacity)) := by
  simp only [appendCommand, withCtx_of_some hc, Ctx.append_eq_none.2 hfull, failWith_eq_next]

/-- ADDBIT is the append of its one bit (R80). -/
theorem exec_addbit (m : Nat) (b : Bool) (s : State) : exec (.addbit m b) s = appendCommand m [b] s := rfl

/-! ## Each command appends its bits -/

/-- A command that is the append of a run appends the run's bits, in a buffer that is as before outside them. -/
theorem appendsBits_of_run {bit : Nat → Bool} (hexec : ∀ s, exec i s = appendCommand m bs s) (hlen : bs.length = n)
    (hbit : ∀ k, k < n → bs.getD k false = bit k) : appendsBits i m n bit := by
  intro s c hs hc
  obtain ⟨-, -, hmem, -⟩ := ctx_wf_of_inv hs hc
  subst hlen
  refine ⟨fun hroom => ⟨putBits c.buf c.bitCount bs, ?stored, fun k hk => ?inside, fun q hq => ?outside⟩,
    fun hfull => ?full⟩
  case stored => exact (hexec s).trans (appendCommand_of_append hc (Ctx.append_eq_some.2 ⟨hroom, rfl⟩))
  case inside => rw [bitRead_putBits bs hmem, if_pos (by omega), Nat.add_sub_cancel_left, hbit k hk]
  case outside => exact bitRead_putBits_outside hmem hq
  case full => exact (hexec s).trans (appendCommand_of_full hc hfull)

/-- A command that is the append of an `n`-bit value appends it most significant bit first (00_scope.md R7). -/
theorem appendsBits_of_value (v : BitVec n) (hexec : ∀ s, exec i s = appendCommand m (bitsOf n v.toNat) s) :
    appendsBits i m n fun k => v.getLsbD (n - 1 - k) :=
  appendsBits_of_run hexec (bitsOf_length n _) fun k hk => bitsOf_getD n _ k hk

/-- Settles O20: a run of one bit. -/
theorem addbitAppendsItsBit : Obligations.AddbitAppendsItsBit := by
  intro m b
  refine appendsBits_of_run (exec_addbit m b) rfl fun k hk => ?_
  rw [Nat.lt_one_iff.1 hk, List.getD_cons_zero]

/-- Settles O21. -/
theorem addsAppendTheirValueMsbFirst : Obligations.AddsAppendTheirValueMsbFirst :=
  ⟨fun _ v => appendsBits_of_value v fun _ => rfl, fun _ v => appendsBits_of_value v fun _ => rfl,
    fun _ v => appendsBits_of_value v fun _ => rfl⟩

/-! ## A wide append as repeated ADDBITs -/

/-- One ADDBIT for each bit of a run that the context takes leaves it as the one append of the run does: an append of the
first bit and then of the rest is the append of the whole (`Ctx.append_append`). -/
theorem execAll_addbits_of_append (hc : s.ctxs[m]? = some c) (ha : c.append s.params.capBits bs = some d) :
    ∃ u, execAll (bs.map (.addbit m)) s = .next u ∧ u.ctxs = s.ctxs.set m d := by
  induction bs generalizing s c with
  | nil =>
    obtain ⟨-, rfl⟩ := Ctx.append_eq_some.1 ha
    obtain ⟨hm, rfl⟩ := List.getElem?_eq_some_iff.1 hc
    exact ⟨s, rfl, (List.set_getElem_self hm).symm⟩
  | cons b bs ih =>
    rw [← List.singleton_append, Ctx.append_append] at ha
    obtain ⟨c', hfirst, hrest⟩ := Option.bind_eq_some_iff.1 ha
    have hstep := (exec_addbit m b s).trans (appendCommand_of_append hc hfirst)
    obtain ⟨u, hrun, hu⟩ := ih (s := (s.setCtx m c').respond .done) (getElem?_setCtx_same hc c') hrest
    refine ⟨u, ?_, by rw [hu, State.respond_ctxs, State.setCtx_ctxs, List.set_set]⟩
    simp only [List.map_cons, execAll, hstep, hrun]

/-- The bits of a value, appended at once or by one ADDBIT each, leave the same contexts. -/
theorem appendCommand_eq_addbits (hc : s.ctxs[m]? = some c) (v : BitVec n)
    (hroom : c.bitCount + n ≤ s.params.capBits) :
    ∃ t u, appendCommand m (bitsOf n v.toNat) s = .next t ∧
      execAll ((List.range n).map fun k => .addbit m (v.getLsbD (n - 1 - k))) s = .next u ∧ t.ctxs = u.ctxs := by
  have ha : c.append s.params.capBits (bitsOf n v.toNat) = some _ :=
    Ctx.append_eq_some.2 ⟨by rwa [bitsOf_length], rfl⟩
  obtain ⟨u, hrun, hu⟩ := execAll_addbits_of_append hc ha
  rw [bitsOf, List.map_map] at hrun
  exact ⟨_, u, appendCommand_of_append hc ha, hrun, hu.symm⟩

/-- Settles O22. -/
theorem wideAppendsAreRepeatedAddbits : Obligations.WideAppendsAreRepeatedAddbits :=
  fun _ _ _ _ hc => ⟨appendCommand_eq_addbits hc, appendCommand_eq_addbits hc, appendCommand_eq_addbits hc⟩

end Sys2Proof.Machine
end

section
/-! The extractions (41_extract_ops.md): one rule for each outcome of the bound check of R95. Each of the five commands is
`extract` at its own width, so one lemma about `extract` serves them all; only GETCHUNK checks its length before. -/

namespace Sys2Proof.Machine

variable {i : Instr} {s : State} {c : Ctx} {m pos n next len : Nat}

/-! ## What the shared extraction answers -/

/-- A span past both `bit_count` and the buffer is a CAPACITY failure. -/
theorem extract_of_capacity (k : Nat → Response) (hcount : c.bitCount < pos + n)
    (hcap : s.params.capBits < pos + n) :
    extract c s pos n k = .next (s.respond (extractFailed .capacity pos)) := by
  simp only [extract, extractBound, if_neg (Nat.not_le.2 hcount), if_pos hcap, answer_eq_next]

/-- A span past `bit_count` but within the buffer is a BOUNDS failure. -/
theorem extract_of_bounds (k : Nat → Response) (hcount : c.bitCount < pos + n)
    (hcap : pos + n ≤ s.params.capBits) :
    extract c s pos n k = .next (s.respond (extractFailed .bounds pos)) := by
  simp only [extract, extractBound, if_neg (Nat.not_le.2 hcount), if_neg (Nat.not_lt.2 hcap), answer_eq_next]

/-- The response word of a failed extraction (30_encoding.md R61, R62). -/
theorem extractFailed_word (cause : Cause) (pos : Nat) :
    (extractFailed cause pos).word = failWord cause (BitVec.ofNat 16 pos) := by
  rw [failWord, ← causeCode_some]; rfl

/-- Up to 32 bits read lie right-justified in `DATA`, the first one most significant (41_extract_ops.md R91). -/
theorem getLsbD_ofNat_memRead (hn : n ≤ 32) (mem : Memory) (p k : Nat) :
    (BitVec.ofNat 32 (memRead mem p n)).getLsbD k = (decide (k < n) && bitRead mem (p + n - 1 - k)) := by
  rw [BitVec.getLsbD_ofNat, memRead_testBit]
  by_cases hk : k < n
  · rw [decide_eq_true (hk.trans_le hn), Bool.true_and]
  · rw [decide_eq_false hk, Bool.false_and, Bool.and_false]

/-! ## Each command extracts its bits -/

/-- A command that is the extraction of at most 32 bits of its context extracts those bits. -/
theorem extractsBits_of_extract (hn : n ≤ 32)
    (hexec : ∀ s c, s.ctxs[m]? = some c → exec i s = extract c s pos n fun data => extracted next data) :
    extractsBits i m pos n next := by
  intro s c hs hc
  obtain ⟨-, hcursor, -⟩ := ctx_wf_of_inv hs hc
  rw [hexec s c hc]
  refine ⟨fun hin => ⟨BitVec.ofNat 32 (memRead c.buf pos n), ?read, getLsbD_ofNat_memRead hn c.buf pos⟩,
    fun hcount hcap => ?capacity, fun hcount hcap => ?bounds⟩
  case read => rw [extract_ok _ hin hcursor, State.respond, extracted_word]
  case capacity => rw [extract_of_capacity _ hcount hcap, State.respond, extractFailed_word]
  case bounds => rw [extract_of_bounds _ hcount hcap, State.respond, extractFailed_word]

/-- Settles O25: one bit, the position given back as it was. -/
theorem getbitReadsItsBit : Obligations.GetbitReadsItsBit :=
  fun _ _ => extractsBits_of_extract (by decide) fun _ _ => withCtx_of_some

/-- Settles O27. -/
theorem getsReadWholeValues : Obligations.GetsReadWholeValues :=
  ⟨fun _ _ => extractsBits_of_extract (by decide) fun _ _ => withCtx_of_some,
    fun _ _ => extractsBits_of_extract (by decide) fun _ _ => withCtx_of_some,
    fun _ _ => extractsBits_of_extract (by decide) fun _ _ => withCtx_of_some⟩

/-! ## The length check of GETCHUNK -/

/-- GETCHUNK of at most 8 bits is the extraction of its span (R91). -/
theorem exec_getchunk_of_le (hc : s.ctxs[m]? = some c) (hlen : len ≤ 8) :
    exec (.getchunk m pos len) s = extract c s pos len fun data => extracted (pos + len) data :=
  (withCtx_of_some hc).trans (if_neg (Nat.not_lt.2 hlen))

/-- GETCHUNK of more than 8 bits is a BOUNDS failure before its span is looked at (R91, 60_exceptions.md R169). -/
theorem exec_getchunk_of_gt (hm : m < s.nMsg) (hlen : 8 < len) :
    exec (.getchunk m pos len) s = .next (s.respond (extractFailed .bounds pos)) :=
  (withCtx_of_some (List.getElem?_eq_getElem hm)).trans (if_pos hlen)

/-- Settles O26: the two sides of the length check. -/
theorem getchunkReadsUpToEightBits : Obligations.GetchunkReadsUpToEightBits := by
  refine ⟨fun m pos len hlen => ?upToEight, fun s m pos len hm hlen => ?aboveEight⟩
  case upToEight => exact extractsBits_of_extract (by omega) fun _ _ hc => exec_getchunk_of_le hc hlen
  case aboveEight => rw [exec_getchunk_of_gt hm hlen, State.respond, extractFailed_word]

end Sys2Proof.Machine
end

section
/-! The integrity codes (43_integrity_ops.md): what a code reads of its buffer, and the width of its value. -/

namespace Sys2Proof.Machine

variable {buf buf' : Memory} {n : Nat}

/-! ## What a code reads -/

/-- Bit `i` of a stored byte stands at position `7 - i` of the byte (20_memory.md R42). -/
theorem getLsbD_read (mem : Memory) (a : Nat) {i : Nat} (hi : i < 8) :
    (mem.read a).getLsbD i = bitRead mem (8 * a + (7 - i)) := by
  rw [bitRead, show (8 * a + (7 - i)) / 8 = a by omega, show 7 - (8 * a + (7 - i)) % 8 = i by omega]

/-- The tail byte's bits are the buffer's where they are covered and 0 below (43_integrity_ops.md R121). -/
theorem getLsbD_tailByte (buf : Memory) (n : Nat) {i : Nat} (hi : i < 8) :
    (tailByte buf n).getLsbD i = (bitRead buf (8 * (n / 8) + (7 - i)) && decide (8 - n % 8 ≤ i)) := by
  have hmask : (0xFF#8 <<< (8 - n % 8)).getLsbD i = decide (8 - n % 8 ≤ i) := by
    rw [show (0xFF#8) = BitVec.allOnes 8 from rfl, BitVec.getLsbD_shiftLeft, BitVec.getLsbD_allOnes]
    rw [Bool.eq_iff_iff]
    simp only [Bool.and_eq_true, Bool.not_eq_true', decide_eq_true_eq, decide_eq_false_iff_not]
    omega
  rw [tailByte, BitVec.getLsbD_and, getLsbD_read buf _ hi, hmask]

/-! Two buffers alike below position `n`. -/

theorem fullBytes_congr (h : ∀ q, q < n → bitRead buf q = bitRead buf' q) : fullBytes buf n = fullBytes buf' n := by
  refine List.map_congr_left fun a ha => BitVec.eq_of_getLsbD_eq fun i hi => ?_
  have ha := List.mem_range.1 ha
  rw [getLsbD_read buf a hi, getLsbD_read buf' a hi, h _ (by omega)]

theorem tailByte_congr (h : ∀ q, q < n → bitRead buf q = bitRead buf' q) : tailByte buf n = tailByte buf' n := by
  refine BitVec.eq_of_getLsbD_eq fun i hi => ?_
  rw [getLsbD_tailByte buf n hi, getLsbD_tailByte buf' n hi]
  by_cases hcov : 8 - n % 8 ≤ i
  · rw [h _ (by omega)]
  · rw [decide_eq_false hcov, Bool.and_false, Bool.and_false]

/-- A code reads its buffer through the full bytes and the tail byte, so the covered bits determine it (R121). -/
theorem code_congr (kind : Kind) (tail : TailShifts) (h : ∀ q, q < n → bitRead buf q = bitRead buf' q) :
    code kind tail buf n = code kind tail buf' n := by
  have hcrc : ∀ {width : Nat} (poly init : BitVec width),
      crcRegister poly init tail buf n = crcRegister poly init tail buf' n := fun _ _ => by
    rw [crcRegister, crcRegister, fullBytes_congr h, tailByte_congr h]
  have hsum : coveredBytes buf n = coveredBytes buf' n := by
    rw [coveredBytes, coveredBytes, fullBytes_congr h, tailByte_congr h]
  cases kind with
  | crc8 | crc16 | crc32 => simp only [code, codeCrc8, codeCrc16, codeCrc32, hcrc]
  | checksum8 | checksum16 | checksum32 =>
    simp only [code, codeChecksum8, codeChecksum16, codeChecksum32, hsum]

/-- A code's value has no more bits than its trailer (R129). -/
theorem code_lt (kind : Kind) (tail : TailShifts) (buf : Memory) (n : Nat) :
    code kind tail buf n < 2 ^ trailerWidth kind := by
  cases kind with
  | crc8 | crc16 | crc32 => exact BitVec.isLt _
  | checksum8 | checksum16 | checksum32 => exact Nat.mod_lt _ (by decide)

end Sys2Proof.Machine
end

section
/-! The frame commands (42_frame_ops.md). A command that only sets fields is its whole next state; the size MINSIZE
answers is two to the ceiling of the base-2 logarithm; and a PREPTX puts together a body, `bodyCtx`, which is sealed as it
is, or with its trailer, or given up. -/

namespace Sys2Proof.Machine

variable {s : State} {m n sel v q : Nat} {c d : Ctx} {kind : Kind} {cause : Cause}

/-! ## Responses -/

/-- A plain success (00_scope.md R8). -/
theorem respond_done (s : State) :
    s.respond .done = { s with responses := s.responses ++ [okWord false 0 0] } := rfl

theorem respond_withData (s : State) (data : Nat) :
    s.respond (withData data) =
      { s with responses := s.responses ++ [okWord false 0 (BitVec.ofNat 32 data)] } := rfl

theorem respond_failed (s : State) (cause : Cause) :
    s.respond (.failed cause) = { s with responses := s.responses ++ [failWord cause 0] } := by
  rw [failWord, ← causeCode_some]; rfl

/-- A handle below `N_MSG` names a context. -/
theorem exists_ctx (hm : m < s.nMsg) : ∃ c, s.ctxs[m]? = some c := ⟨_, List.getElem?_eq_getElem hm⟩

/-! ## PREPRX, RXPRE, RXSEAL -/

theorem read_nil (a : Nat) : Memory.read [] a = 0 := rfl

/-- Settles O29: the context is `resetCtx`, whose buffer lists no byte. -/
theorem preprxResetsItsContext : Obligations.PreprxResetsItsContext := by
  intro s m hm
  obtain ⟨c, hc⟩ := exists_ctx hm
  exact ⟨resetCtx, withCtx_of_some hc, rfl, rfl, rfl, rfl, rfl, rfl, rfl, read_nil⟩

/-- Settles O32. -/
theorem rxpreSetsThePreambleFlag : Obligations.RxpreSetsThePreambleFlag := fun _ _ _ hc => withCtx_of_some hc

/-- Settles O33. -/
theorem rxsealRecordsTheLength : Obligations.RxsealRecordsTheLength := fun _ _ _ hc => withCtx_of_some hc

/-! ## RDCTX -/

/-- A selector that names a field answers its value, as the 32-bit word `data` says it. -/
theorem exec_rdctx_of_some {data : BitVec 32} (hc : s.ctxs[m]? = some c) (hv : ctxField c sel = some v)
    (hdata : BitVec.ofNat 32 v = data) :
    exec (.rdctx m sel) s = .next { s with responses := s.responses ++ [okWord false 0 data] } := by
  simp only [exec, execRdctx, withCtx_of_some hc, hv, answer_eq_next, respond_withData, hdata]

theorem exec_rdctx_of_none (hc : s.ctxs[m]? = some c) (hv : ctxField c sel = none) :
    exec (.rdctx m sel) s = .next { s with responses := s.responses ++ [failWord .illegal 0] } := by
  simp only [exec, execRdctx, withCtx_of_some hc, hv, failWith_eq_next, respond_failed]

/-- Selectors above 5 name no field (R107). -/
theorem ctxField_eq_none (c : Ctx) (h : 5 < sel) : ctxField c sel = none := by
  match sel, h with
  | n + 6, _ => rfl

theorem ofNat_toNat_bool (b : Bool) : BitVec.ofNat 32 b.toNat = (BitVec.ofBool b).setWidth 32 := by
  cases b <;> rfl

/-- The FLAGS field is `preamble_received` in bit 0 and `fully_received` in bit 1 (R107). -/
theorem ofNat_flagsView (c : Ctx) : BitVec.ofNat 32 (flagsView c) =
    0#30 ++ BitVec.ofBool c.fullyReceived ++ BitVec.ofBool c.preambleReceived := by
  rw [flagsView]
  cases c.fullyReceived <;> cases c.preambleReceived <;> rfl

/-- Settles O36, selector by selector. -/
theorem rdctxReadsTheSelectedField : Obligations.RdctxReadsTheSelectedField := fun _ _ c hc =>
  ⟨exec_rdctx_of_some hc rfl rfl, exec_rdctx_of_some hc rfl rfl, exec_rdctx_of_some hc rfl (ofNat_flagsView c),
    exec_rdctx_of_some hc rfl (BitVec.ofNat_toNat ..), exec_rdctx_of_some hc rfl (ofNat_toNat_bool c.stationary),
    exec_rdctx_of_some hc rfl (BitVec.ofNat_toNat ..), fun _ hsel => exec_rdctx_of_none hc (ctxField_eq_none c hsel)⟩

/-! ## MINSIZE -/

/-- The search finds the ceiling of the logarithm from any exponent not above it, given enough steps. -/
theorem leastPowerFrom_eq (fuel : Nat) : ∀ {e : Nat}, e ≤ Nat.clog 2 n → Nat.clog 2 n ≤ e + fuel →
    leastPowerFrom n fuel e = 2 ^ Nat.clog 2 n := by
  induction fuel with
  | zero => intro e hle hge; rw [leastPowerFrom, Nat.le_antisymm hle hge]
  | succ fuel ih =>
    intro e hle hge
    rw [leastPowerFrom]
    split
    · next h => rw [Nat.le_antisymm hle (Nat.clog_le_of_le_pow h)]
    · next h => exact ih ((Nat.lt_clog_iff_pow_lt one_lt_two).2 (Nat.not_le.1 h)) (by omega)

theorem leastPower_eq (n : Nat) : leastPower n = 2 ^ Nat.clog 2 n :=
  leastPowerFrom_eq n (Nat.zero_le _) (by rw [Nat.zero_add]; exact Nat.clog_le_of_le_pow Nat.lt_two_pow_self.le)

/-- `MIN_SIZE_BYTES` is at most 65536 (log entry 10). -/
theorem minSizeBytes_le {p : Params} (hp : p.wf = true) : p.minSizeBytes ≤ 65536 := by
  simp only [Params.wf, Bool.and_eq_true, decide_eq_true_eq] at hp
  obtain ⟨⟨⟨-, hmin⟩, -⟩, -⟩ := hp
  exact hmin

/-- Settles O30: the exponent is the ceiling of the base-2 logarithm. -/
theorem minsizeAnswersTheLeastPowerOfTwo : Obligations.MinsizeAnswersTheLeastPowerOfTwo := by
  intro s n hs hn
  obtain ⟨hp, -⟩ := hs
  have hmax : max n s.params.minSizeBytes ≤ 2 ^ 16 := max_le hn.le (minSizeBytes_le hp)
  refine ⟨Nat.clog 2 (max n s.params.minSizeBytes), Nat.le_pow_clog one_lt_two _, fun d hd => ?least, ?bound, ?answer⟩
  case least => exact Nat.pow_le_pow_right two_pos (Nat.clog_le_of_le_pow hd)
  case bound => exact Nat.pow_le_pow_right two_pos (Nat.clog_le_of_le_pow hmax)
  case answer => rw [exec, execMinsize, answer_eq_next, respond_withData, leastPower_eq]

/-! ## The staging area -/

/-- Settles O34: the two sides of the index check. -/
theorem appwrStoresOneByte : Obligations.AppwrStoresOneByte := by
  intro s idx byte hs
  obtain ⟨-, -, -, ⟨-, hdata, -⟩, -⟩ := hs
  refine ⟨fun hidx => ⟨s.app.data.write idx byte, ?stored, ?written, fun a ha => ?others⟩, fun hidx => ?full⟩
  case stored => exact if_neg (Nat.not_le.2 hidx)
  case written => rw [Memory.read_write hdata, if_pos rfl]
  case others => rw [Memory.read_write hdata, if_neg ha]
  case full => rw [exec, execAppwr, if_pos hidx, failWith_eq_next, respond_failed]

/-- Settles O35: the two sides of the length check. -/
theorem apphdrDeclaresTheMessage : Obligations.ApphdrDeclaresTheMessage := by
  refine fun s type lengthBits => ⟨fun hlen => if_neg (Nat.not_lt.2 hlen), fun hlen => ?_⟩
  rw [exec, execApphdr, if_pos hlen, failWith_eq_next, respond_failed]

/-! ## The body of a frame -/

theorem isEvaluation_iff : isEvaluation s = true ↔ s.app.contentType = s.params.evalType := beq_iff_eq

theorem isEvaluation_eq_false_iff : isEvaluation s = false ↔ s.app.contentType ≠ s.params.evalType :=
  beq_eq_false_iff_ne

/-- The context before the trailer: the body at position 0, both lengths its length, the metadata snapshot (R100). -/
def bodyCtx (s : State) : Ctx :=
  { snapshotCtx s with
    buf := putBits [] 0 (frameBody s)
    bitCount := (frameBody s).length
    finalLength := (frameBody s).length }

theorem bodyCtx_bitCount (s : State) : (bodyCtx s).bitCount = (frameBody s).length := rfl

/-- A body that fits leaves the rest of PREPTX to the trailer. -/
theorem buildFrame_of_room (hroom : (frameBody s).length ≤ s.params.capBits) :
    buildFrame s = frameTrailer s (bodyCtx s) := by
  rw [buildFrame, framePayload_eq_some.2 ⟨hroom, rfl⟩]; rfl

theorem buildFrame_of_full (hfull : s.params.capBits < (frameBody s).length) : buildFrame s = .failed .capacity := by
  rw [buildFrame, framePayload_eq_none.2 hfull]

theorem wf_nil : Memory.wf [] := ⟨List.Pairwise.nil, by simp⟩

theorem bitRead_nil (q : Nat) : bitRead [] q = false := by
  rw [bitRead, read_nil]; exact BitVec.getLsbD_zero

theorem bodyCtx_buf_wf (s : State) : (bodyCtx s).buf.wf := putBits_wf wf_nil _ _

/-- The body's buffer holds the body and then zeros. -/
theorem bitRead_bodyCtx (s : State) (q : Nat) : bitRead (bodyCtx s).buf q = (frameBody s).getD q false := by
  rw [bodyCtx, bitRead_putBits _ wf_nil, bitRead_nil]
  by_cases hq : q < (frameBody s).length
  · rw [if_pos (by omega), Nat.sub_zero]
  · rw [if_neg (by omega), List.getD_eq_default _ _ (Nat.not_lt.1 hq)]

/-- Bit `j` of the payload is staging bit `j` (42_frame_ops.md, `AppBit`). -/
theorem payload_getD (a : App) {j : Nat} (hj : j < a.lengthBits) : a.payload.getD j false = bitRead a.data j := by
  simp [App.payload, List.getD, hj]

theorem frameBody_of_evaluation (he : isEvaluation s = true) : frameBody s = s.app.payload := by
  rw [frameBody, if_pos he, List.nil_append]

theorem frameBody_of_framed (he : isEvaluation s = false) : frameBody s = s.params.preamble ++ s.app.payload := by
  rw [frameBody, he, if_neg Bool.false_ne_true]

theorem frameBody_length_of_framed (he : isEvaluation s = false) :
    (frameBody s).length = s.params.preamble.length + s.app.lengthBits := by
  rw [frameBody_of_framed he, List.length_append, App.payload_length]

/-! ## What the trailer step answers -/

theorem frameTrailer_of_evaluation (c : Ctx) (he : isEvaluation s = true) :
    frameTrailer s c = .built { c with fullyReceived := true } := by rw [frameTrailer, if_pos he]

theorem frameTrailer_of_unregistered (c : Ctx) (he : isEvaluation s = false)
    (hr : s.config.eccMethod.registered = false) : frameTrailer s c = .failed .registration := by
  simp [frameTrailer, he, hr]

theorem frameTrailer_of_none (he : isEvaluation s = false) (hr : s.config.eccMethod.registered = true)
    (hv : s.config.eccMethod.value = kindCode kind) (ht : addTrailer s.params kind c = none) :
    frameTrailer s c = .failed .capacity := by simp [frameTrailer, he, hr, hv, ht]

theorem frameTrailer_of_some (he : isEvaluation s = false) (hr : s.config.eccMethod.registered = true)
    (hv : s.config.eccMethod.value = kindCode kind) (ht : addTrailer s.params kind c = some d) :
    frameTrailer s c = .built { d with fullyReceived := true } := by simp [frameTrailer, he, hr, hv, ht]

/-! ## What PREPTX answers -/

/-- With a register of the snapshot unregistered, PREPTX fails before its reset step (R108, case a). -/
theorem exec_preptx_of_unregistered (hm : m < s.nMsg)
    (h : s.config.modemId.registered = false ∨ s.config.stationary.registered = false) :
    exec (.preptx m) s = .next { s with responses := s.responses ++ [failWord .registration 0] } := by
  obtain ⟨c, hc⟩ := exists_ctx hm
  have hboth : (s.config.modemId.registered && s.config.stationary.registered) = false := by
    rwa [Bool.and_eq_false_iff]
  simp only [exec, execPreptx, withCtx_of_some hc, hboth, Bool.false_eq_true, if_false, failWith_eq_next,
    respond_failed]

section registered

variable (hm : m < s.nMsg) (hid : s.config.modemId.registered = true) (hst : s.config.stationary.registered = true)
include hm hid hst

/-- A frame that is built becomes the context. -/
theorem exec_preptx_of_built (hb : buildFrame s = .built c) : exec (.preptx m) s = .next
    { s with ctxs := s.ctxs.set m c, responses := s.responses ++ [okWord false 0 0] } := by
  obtain ⟨c', hc⟩ := exists_ctx hm
  simp only [exec, execPreptx, withCtx_of_some hc, hid, hst, Bool.and_self, if_true, hb, answer_eq_next,
    respond_done, State.setCtx]

/-- A frame that fails leaves a free context within the invariant, both flags 0 (R108, case b). -/
theorem exec_preptx_of_failed (hb : buildFrame s = .failed cause) : ∃ d : Ctx,
    exec (.preptx m) s = .next
      { s with ctxs := s.ctxs.set m d, responses := s.responses ++ [failWord cause 0], draws := s.draws + 1 }
    ∧ d.preambleReceived = false ∧ d.fullyReceived = false ∧ d.wf s.params := by
  obtain ⟨c, hc⟩ := exists_ctx hm
  refine ⟨drawnCtx s.params s.draws, ?_, rfl, rfl, drawnCtx_wf _ _⟩
  simp only [exec, execPreptx, withCtx_of_some hc, hid, hst, Bool.and_self, if_true, hb, failWith_eq_next,
    respond_failed, State.setCtx, State.bumpDraws]

end registered

/-- Settles O39: the body is checked before `ECC_METHOD` and that before the trailer (60_exceptions.md R169). -/
theorem preptxFailsAsTheRuleSays : Obligations.PreptxFailsAsTheRuleSays := by
  intro s m _ hm
  refine ⟨exec_preptx_of_unregistered hm, fun hid hst hne => ?_⟩
  have he : isEvaluation s = false := isEvaluation_eq_false_iff.2 hne
  rw [← frameBody_length_of_framed he]
  refine ⟨fun hfull => ?body, fun hroom hr => ?method, fun kind hroom hr hv hfull => ?trailer⟩
  all_goals refine exec_preptx_of_failed hm hid hst ?_
  case body => exact buildFrame_of_full hfull
  case method => rw [buildFrame_of_room hroom, frameTrailer_of_unregistered _ he hr]
  case trailer => rw [buildFrame_of_room hroom, frameTrailer_of_none he hr hv (addTrailer_eq_none.2 hfull)]

/-- Settles O38: the payload, whose declared length is within the capacity (10_state.md R29), is the whole body. -/
theorem preptxBuildsTheEvaluationFrame : Obligations.PreptxBuildsTheEvaluationFrame := by
  intro s m hs hm hid hst heval
  obtain ⟨-, -, -, ⟨hlen, -⟩, -⟩ := hs
  have he : isEvaluation s = true := isEvaluation_iff.2 heval
  have hbody : frameBody s = s.app.payload := frameBody_of_evaluation he
  have hbuilt : buildFrame s = .built { bodyCtx s with fullyReceived := true } := by
    rw [buildFrame_of_room (by rwa [hbody, App.payload_length]), frameTrailer_of_evaluation _ he]
  refine ⟨(bodyCtx s).buf, ?built, fun j hj => ?payload, fun q hq => ?zeros⟩
  case built =>
    rw [exec_preptx_of_built hm hid hst hbuilt, bodyCtx, hbody, App.payload_length]; rfl
  case payload => rw [bitRead_bodyCtx, hbody, payload_getD _ hj]
  case zeros => rw [bitRead_bodyCtx, hbody, List.getD_eq_default _ _ (by rwa [App.payload_length])]

/-! ## The frame with its trailer -/

/-- The buffer of a framed PREPTX: the body, and after it the body's code (30_encoding.md R70). -/
def frameBuf (s : State) (kind : Kind) : Memory :=
  memWrite (bodyCtx s).buf (frameBody s).length (trailerWidth kind)
    (code kind s.params.crcTailShifts (bodyCtx s).buf (frameBody s).length)

/-- Outside the trailer the buffer holds the body and zeros. -/
theorem bitRead_frameBuf (hq : q < (frameBody s).length ∨ (frameBody s).length + trailerWidth kind ≤ q) :
    bitRead (frameBuf s kind) q = (frameBody s).getD q false := by
  rw [frameBuf, memWrite, bitRead_putBits_outside (bodyCtx_buf_wf s) (by rwa [bitsOf_length]), bitRead_bodyCtx]

/-- The trailer is the code of the bits before it, which writing it left alone. -/
theorem memRead_frameBuf (s : State) (kind : Kind) :
    memRead (frameBuf s kind) (frameBody s).length (trailerWidth kind)
      = code kind s.params.crcTailShifts (frameBuf s kind) (frameBody s).length := by
  have hcovered : ∀ q, q < (frameBody s).length → bitRead (bodyCtx s).buf q = bitRead (frameBuf s kind) q :=
    fun q hq => by rw [bitRead_frameBuf (.inl hq), bitRead_bodyCtx]
  rw [← code_congr kind _ hcovered]
  exact memRead_memWrite_same (bodyCtx_buf_wf s) (code_lt _ _ _ _)

/-- Settles O37: the body's bits are the preamble's and then the payload's, and the trailer follows them. -/
theorem preptxBuildsTheFrame : Obligations.PreptxBuildsTheFrame := by
  intro s m kind _ hm hid hst hr hv hne P L W hroom
  have he : isEvaluation s = false := isEvaluation_eq_false_iff.2 hne
  have hlen : (frameBody s).length = P + L := frameBody_length_of_framed he
  have htrailer : addTrailer s.params kind (bodyCtx s) = some _ :=
    addTrailer_eq_some.2 ⟨by rwa [bodyCtx_bitCount, hlen], rfl⟩
  have hbuilt := (buildFrame_of_room (by omega)).trans (frameTrailer_of_some he hr hv htrailer)
  refine ⟨frameBuf s kind, ?built, fun j hj => ?preamble, fun j hj => ?payload, ?trailer, fun q hq => ?zeros⟩
  case built => rw [exec_preptx_of_built hm hid hst hbuilt, ← hlen]; rfl
  case preamble => rw [bitRead_frameBuf (by omega), frameBody_of_framed he, List.getD_append _ _ _ _ hj]
  case payload =>
    rw [bitRead_frameBuf (by omega), frameBody_of_framed he, List.getD_append_right _ _ _ _ (Nat.le_add_right P j),
      Nat.add_sub_cancel_left, payload_getD _ hj]
  case trailer => rw [← hlen]; exact memRead_frameBuf s kind
  case zeros => rw [bitRead_frameBuf (by omega), List.getD_eq_default _ _ (by omega)]

end Sys2Proof.Machine
end

section
/-! The values of the integrity codes (43_integrity_ops.md R121 to R129, R133). A CRC takes a byte in at the top of its
register and a step only shifts and adds, so feeding a byte is feeding its bits one by one; a checksum is one sum over
its bytes, cut into groups. -/

namespace Sys2Proof.Machine

variable {buf padded : Memory} {n : Nat}

/-- Settles O40. -/
theorem codeDependsOnCoveredBitsOnly : Obligations.CodeDependsOnCoveredBitsOnly :=
  fun kind tail _ _ _ h => code_congr kind tail h

/-- Settles O41. -/
theorem codeFitsItsTrailer : Obligations.CodeFitsItsTrailer := code_lt

/-! ## The covered bytes -/

theorem fullBytes_length (buf : Memory) (n : Nat) : (fullBytes buf n).length = n / 8 := by
  rw [fullBytes, List.length_map, List.length_range]

theorem coveredBytes_of_aligned (h : n % 8 = 0) : coveredBytes buf n = fullBytes buf n := by
  rw [coveredBytes, if_pos h, List.append_nil]

theorem coveredBytes_of_unaligned (h : n % 8 ≠ 0) : coveredBytes buf n = fullBytes buf n ++ [tailByte buf n] := by
  rw [coveredBytes, if_neg h]

theorem coveredBytes_length (buf : Memory) (n : Nat) : (coveredBytes buf n).length = (n + 7) / 8 := by
  by_cases h : n % 8 = 0
  · rw [coveredBytes_of_aligned h, fullBytes_length]; omega
  · rw [coveredBytes_of_unaligned h, List.length_append, fullBytes_length, List.length_singleton]; omega

/-- Below the tail a covered byte is the buffer's. -/
theorem coveredBytes_getD_full {x : Nat} (hx : x < n / 8) : (coveredBytes buf n).getD x 0 = buf.read x := by
  rw [coveredBytes, List.getD_append _ _ _ _ (by rwa [fullBytes_length]), fullBytes]
  simp [List.getD, hx]

theorem coveredBytes_getD_tail (h : n % 8 ≠ 0) : (coveredBytes buf n).getD (n / 8) 0 = tailByte buf n := by
  rw [coveredBytes_of_unaligned h, List.getD_append_right _ _ _ _ (fullBytes_length buf n).le, fullBytes_length,
    Nat.sub_self, List.getD_cons_zero]

/-- Bit `j` from the top of covered byte `x` is the buffer's where it is covered, and 0 where it is not (R121). -/
theorem getLsbD_coveredBytes (buf : Memory) {x j : Nat} (hx : x < (n + 7) / 8) (hj : j < 8) :
    ((coveredBytes buf n).getD x 0).getLsbD (7 - j) = (decide (8 * x + j < n) && bitRead buf (8 * x + j)) := by
  have hplace : 7 - (7 - j) = j := by omega
  by_cases hfull : x < n / 8
  · rw [coveredBytes_getD_full hfull, getLsbD_read _ _ (by omega), hplace,
      decide_eq_true (show 8 * x + j < n by omega), Bool.true_and]
  · obtain rfl : x = n / 8 := by omega
    have hcov : 8 - n % 8 ≤ 7 - j ↔ 8 * (n / 8) + j < n := by omega
    rw [coveredBytes_getD_tail (by omega), getLsbD_tailByte _ _ (by omega), hplace, decide_eq_decide.2 hcov,
      Bool.and_comm]

/-- Settles O45. -/
theorem coveredBytesHoldTheCoveredBits : Obligations.CoveredBytesHoldTheCoveredBits :=
  fun buf n => ⟨coveredBytes_length buf n, fun _ _ => getLsbD_coveredBytes buf⟩

/-- Padding the covered bits with zeros to a byte boundary leaves the covered bytes as they are. -/
theorem coveredBytes_padded (hbelow : ∀ q, q < n → bitRead padded q = bitRead buf q)
    (hpad : ∀ q, n ≤ q → q < 8 * ((n + 7) / 8) → bitRead padded q = false) :
    coveredBytes padded (8 * ((n + 7) / 8)) = coveredBytes buf n := by
  have hlen : (8 * ((n + 7) / 8) + 7) / 8 = (n + 7) / 8 := by omega
  refine List.ext_getElem (by rw [coveredBytes_length, coveredBytes_length, hlen]) fun x hx hx' => ?_
  rw [← List.getD_eq_getElem _ 0 hx, ← List.getD_eq_getElem _ 0 hx']
  rw [coveredBytes_length] at hx hx'
  refine BitVec.eq_of_getLsbD_eq fun i hi => ?_
  obtain ⟨j, hj, rfl⟩ : ∃ j, j < 8 ∧ i = 7 - j := ⟨7 - i, by omega, by omega⟩
  rw [getLsbD_coveredBytes padded hx hj, getLsbD_coveredBytes buf hx' hj, decide_eq_true (by omega), Bool.true_and]
  by_cases hq : 8 * x + j < n
  · rw [hbelow _ hq, decide_eq_true hq, Bool.true_and]
  · rw [hpad _ (Nat.not_lt.1 hq) (by omega), decide_eq_false hq, Bool.false_and]

/-! ## A CRC of whole bytes -/

section crc
variable {width : Nat}

/-- Where the last byte gets eight steps too, the register takes in every covered byte alike. -/
theorem crcRegister_eq_foldl {tail : TailShifts} (poly init : BitVec width) (buf : Memory)
    (h : tail = .byte ∨ n % 8 = 0) :
    crcRegister poly init tail buf n = (coveredBytes buf n).foldl (fun c b => crcFeed poly c b 8) init := by
  by_cases hn : n % 8 = 0
  · rw [crcRegister, if_pos hn, coveredBytes_of_aligned hn]
  · obtain rfl : tail = .byte := h.resolve_right hn
    rw [crcRegister, if_neg hn, coveredBytes_of_unaligned hn, List.foldl_append]; rfl

/-- With eight steps for a partial byte, the register is that of the bits padded with zeros (R133). -/
theorem crcRegister_padded (poly init : BitVec width) (hbelow : ∀ q, q < n → bitRead padded q = bitRead buf q)
    (hpad : ∀ q, n ≤ q → q < 8 * ((n + 7) / 8) → bitRead padded q = false) :
    crcRegister poly init .byte buf n = crcRegister poly init .bits padded (8 * ((n + 7) / 8)) := by
  rw [crcRegister_eq_foldl _ _ _ (.inl rfl), crcRegister_eq_foldl _ _ _ (.inr (Nat.mul_mod_right 8 _)),
    coveredBytes_padded hbelow hpad]

end crc

/-- Settles O43. -/
theorem crcsPadWithZerosUnderByte : Obligations.CrcsPadWithZerosUnderByte := by
  intro kind buf padded n hkind hbelow hpad
  cases kind with
  | crc8 | crc16 | crc32 => simp only [code, codeCrc8, codeCrc16, codeCrc32, crcRegister_padded _ _ hbelow hpad]
  | checksum8 | checksum16 | checksum32 => simp at hkind

/-! ## A CRC bit by bit -/

section bitSerial
variable {width : Nat} {poly init : BitVec width} {b : Byte} {p k : Nat}

/-- The byte in the high byte of a register, where `crcFeed` puts it. -/
def atTop (width : Nat) (b : Byte) : BitVec width := b.setWidth width <<< (width - 8)

theorem crcFeed_eq (poly c : BitVec width) (b : Byte) (k : Nat) :
    crcFeed poly c b k = crcSteps poly k (c ^^^ atTop width b) := rfl

theorem atTop_zero : atTop width 0#8 = 0#width := by simp [atTop]

theorem getLsbD_atTop (b : Byte) {i : Nat} (hi : i < width) :
    (atTop width b).getLsbD i = (decide (width - 8 ≤ i) && b.getLsbD (i - (width - 8))) := by
  rw [atTop, BitVec.getLsbD_shiftLeft, BitVec.getLsbD_setWidth, decide_eq_true hi,
    decide_eq_true (show i - (width - 8) < width by omega), Bool.true_and, Bool.true_and, ← decide_not]
  simp only [Nat.not_lt]

theorem msb_atTop (hw : 8 ≤ width) (b : Byte) : (atTop width b).msb = b.msb := by
  rw [BitVec.msb_eq_getLsbD_last, BitVec.msb_eq_getLsbD_last, getLsbD_atTop b (by omega), decide_eq_true (by omega),
    Bool.true_and, show width - 1 - (width - 8) = 8 - 1 by omega]

/-- Shifting the register shifts the byte, and the bit that leaves the byte leaves the register. -/
theorem atTop_shiftLeft (hw : 8 ≤ width) (b : Byte) : atTop width b <<< 1 = atTop width (b <<< 1) := by
  refine BitVec.eq_of_getLsbD_eq fun i hi => ?_
  have hin : ¬ i < 1 ∧ width - 8 ≤ i - 1 ↔ width - 8 ≤ i ∧ ¬ i - (width - 8) < 1 := by omega
  rw [BitVec.getLsbD_shiftLeft, getLsbD_atTop _ hi, getLsbD_atTop _ (by omega), BitVec.getLsbD_shiftLeft,
    decide_eq_true hi, decide_eq_true (show i - (width - 8) < 8 by omega), Nat.sub_right_comm, Bool.eq_iff_iff]
  simp only [Bool.true_and, Bool.and_eq_true, Bool.not_eq_true', decide_eq_true_eq, decide_eq_false_iff_not]
  rw [← and_assoc, hin, and_assoc]

theorem crcStep_eq_xor (poly c : BitVec width) : crcStep poly c = (c <<< 1) ^^^ (if c.msb then poly else 0#width) := by
  rw [crcStep]; split <;> simp

/-- One step with a byte at the top is one step with the byte's first bit, and the byte's other bits move up. -/
theorem crcStep_xor_atTop (hw : 8 ≤ width) (poly c : BitVec width) (b : Byte) :
    crcStep poly (c ^^^ atTop width b) = crcBit poly c b.msb ^^^ atTop width (b <<< 1) := by
  have htop : (BitVec.twoPow width (width - 1)).msb = true := by simp [BitVec.msb_twoPow]; omega
  have hout : BitVec.twoPow width (width - 1) <<< 1 = 0#width := by
    rw [BitVec.twoPow_eq, ← BitVec.shiftLeft_add, BitVec.shiftLeft_eq_zero (by omega)]
  rw [crcBit, crcStep_eq_xor, crcStep_eq_xor, BitVec.msb_xor, msb_atTop hw, BitVec.shiftLeft_xor_distrib,
    atTop_shiftLeft hw]
  cases b.msb with
  | false => rw [Bool.xor_false, if_neg Bool.false_ne_true]; ac_rfl
  | true =>
    rw [if_pos rfl, BitVec.msb_xor, htop, BitVec.shiftLeft_xor_distrib, hout, BitVec.xor_zero]; ac_rfl

theorem crcSteps_succ (poly : BitVec width) (k : Nat) (c : BitVec width) :
    crcSteps poly (k + 1) c = crcStep poly (crcSteps poly k c) := by
  induction k generalizing c with
  | zero => rfl
  | succ k ih => rw [crcSteps, ih, ← crcSteps]

theorem bitSerialCrc_succ (poly init : BitVec width) (buf : Memory) (p : Nat) :
    bitSerialCrc poly init buf (p + 1) = crcBit poly (bitSerialCrc poly init buf p) (bitRead buf p) := by
  rw [bitSerialCrc, List.range_succ, List.foldl_append]; rfl

/-- After `k` steps the first `k` bits of the byte are taken in, and the others stand at the top of the register. -/
theorem crcSteps_bitSerialCrc (hw : 8 ≤ width) (hk : k ≤ 8)
    (hbits : ∀ j, j < k → b.getLsbD (7 - j) = bitRead buf (p + j)) :
    crcSteps poly k (bitSerialCrc poly init buf p ^^^ atTop width b)
      = bitSerialCrc poly init buf (p + k) ^^^ atTop width (b <<< k) := by
  induction k with
  | zero => rw [BitVec.shiftLeft_zero]; rfl
  | succ k ih =>
    have hmsb : (b <<< k).msb = bitRead buf (p + k) := by
      rw [← hbits k (Nat.lt_succ_self k), BitVec.msb_eq_getLsbD_last, BitVec.getLsbD_shiftLeft]
      simp; omega
    rw [crcSteps_succ, ih (by omega) fun j hj => hbits j (by omega), crcStep_xor_atTop hw, hmsb, ← bitSerialCrc_succ,
      ← BitVec.shiftLeft_add, Nat.add_assoc]

/-- A byte fed with as many steps as it has covered bits, no bit set below them, is those bits fed one by one (R133). -/
theorem crcFeed_bitSerialCrc (hw : 8 ≤ width) (hk : k ≤ 8)
    (hbits : ∀ j, j < k → b.getLsbD (7 - j) = bitRead buf (p + j)) (hrest : b <<< k = 0#8) :
    crcFeed poly (bitSerialCrc poly init buf p) b k = bitSerialCrc poly init buf (p + k) := by
  rw [crcFeed_eq, crcSteps_bitSerialCrc hw hk hbits, hrest, atTop_zero, BitVec.xor_zero]

/-- The full bytes, one after another. -/
theorem foldl_crcFeed_read (hw : 8 ≤ width) (poly init : BitVec width) (buf : Memory) (a : Nat) :
    ((List.range a).map buf.read).foldl (fun c b => crcFeed poly c b 8) init = bitSerialCrc poly init buf (8 * a) := by
  induction a with
  | zero => rfl
  | succ a ih =>
    rw [List.range_succ, List.map_append, List.foldl_append, ih]
    refine crcFeed_bitSerialCrc hw (Nat.le_refl 8) (fun j hj => ?_) ?_
    · rw [getLsbD_read _ _ (by omega), show 7 - (7 - j) = j by omega]
    · exact BitVec.shiftLeft_eq_zero (Nat.le_refl 8)

theorem tailByte_shiftLeft (buf : Memory) (n : Nat) : tailByte buf n <<< (n % 8) = 0#8 := by
  refine BitVec.eq_of_getLsbD_eq fun i hi => ?_
  rw [BitVec.getLsbD_shiftLeft, BitVec.getLsbD_zero]
  by_cases h : i < n % 8
  · simp [h]
  · rw [getLsbD_tailByte _ _ (by omega), decide_eq_false (show ¬ 8 - n % 8 ≤ i - n % 8 by omega), Bool.and_false,
      Bool.and_false]

/-- With as many steps as remaining bits, the register is the bit-serial one (R133). -/
theorem crcRegister_bits (hw : 8 ≤ width) (poly init : BitVec width) (buf : Memory) (n : Nat) :
    crcRegister poly init .bits buf n = bitSerialCrc poly init buf n := by
  rw [crcRegister, fullBytes, foldl_crcFeed_read hw]
  have hn : 8 * (n / 8) + n % 8 = n := Nat.div_add_mod n 8
  split
  · next h => rw [show 8 * (n / 8) = n by omega]
  · refine (crcFeed_bitSerialCrc hw (by omega) (fun j hj => ?_) (tailByte_shiftLeft buf n)).trans (by rw [hn])
    rw [getLsbD_tailByte _ _ (by omega), show 7 - (7 - j) = j by omega, decide_eq_true (by omega), Bool.and_true]

end bitSerial

/-- Settles O42. -/
theorem crcsAreBitSerialUnderBits : Obligations.CrcsAreBitSerialUnderBits := by
  intro buf n
  refine ⟨?crc8, ?crc16, ?crc32⟩
  case crc8 => rw [code, codeCrc8, crcRegister_bits (by decide)]
  case crc16 => rw [code, codeCrc16, crcRegister_bits (by decide)]
  case crc32 =>
    rw [code, codeCrc32, crcRegister_bits (by decide), show 0xFFFFFFFF#32 = BitVec.allOnes 32 from rfl,
      BitVec.xor_allOnes]

/-! ## The checksums -/

/-- A sum over a whole number of groups is the sum of the groups' sums. -/
theorem sum_range_groups (f : Nat → Nat) (g k : Nat) :
    ∑ x ∈ Finset.range (k * g), f x = ∑ j ∈ Finset.range k, ∑ i ∈ Finset.range g, f (j * g + i) := by
  induction k with
  | zero => simp
  | succ k ih => rw [Nat.succ_mul, Finset.sum_range_add, ih, Finset.sum_range_succ]

theorem sum_map_range (f : Nat → Nat) (n : Nat) : ((List.range n).map f).sum = ∑ k ∈ Finset.range n, f k := rfl

/-- A group is the sum of its bytes at their big-endian places. -/
theorem checksumGroup_eq_sum (bytes : List Byte) (g j : Nat) : checksumGroup g bytes j =
    ∑ i ∈ Finset.range g, (bytes.getD (j * g + i) 0).toNat * 256 ^ (g - 1 - (j * g + i) % g) := by
  rw [checksumGroup, sum_map_range]
  refine Finset.sum_congr rfl fun i hi => ?_
  have hi := Finset.mem_range.1 hi
  rw [Nat.shiftLeft_eq, pow_mul, show 2 ^ 8 = 256 from rfl, Nat.mul_add_mod_of_lt hi]

/-- A checksum is one sum over its bytes: those missing from the last group are 0 (43_integrity_ops.md section 4). -/
theorem checksum_eq_sum (bytes : List Byte) {g : Nat} (hg : 0 < g) : checksum g bytes =
    (∑ x ∈ Finset.range bytes.length, (bytes.getD x 0).toNat * 256 ^ (g - 1 - x % g)) % 2 ^ (8 * g) := by
  have hcover : bytes.length ≤ (bytes.length + g - 1) / g * g := by
    have := Nat.lt_div_mul_add (a := bytes.length + g - 1) hg
    omega
  have hmissing : ∀ x ∈ Finset.range ((bytes.length + g - 1) / g * g), x ∉ Finset.range bytes.length →
      (bytes.getD x 0).toNat * 256 ^ (g - 1 - x % g) = 0 := fun x _ hx => by
    rw [List.getD_eq_default _ _ (by simpa using hx)]; exact Nat.zero_mul _
  rw [Finset.sum_subset (Finset.range_subset_range.2 hcover) hmissing, sum_range_groups]
  simp only [checksum, sum_map_range, checksumGroup_eq_sum]

/-- Settles O44, group size by group size. -/
theorem checksumsAreBigEndianGroupSums : Obligations.ChecksumsAreBigEndianGroupSums :=
  fun _ _ _ => ⟨checksum_eq_sum _ (by decide), checksum_eq_sum _ (by decide), checksum_eq_sum _ (by decide)⟩

end Sys2Proof.Machine
end

section
/-! The integrity commands (43_integrity_ops.md section 5). ADDCORR is `addTrailer` on its context, CHKCORR compares the
code of the bits before the trailer with the trailer, and the loop-back of R134 is a run of commands that all name the
receiving context, which leaves it the frame's bits under the sender's method. -/

namespace Sys2Proof.Machine

variable {s t u : State} {m : Nat} {c d : Ctx} {kind : Kind}

/-! ## CHKLEN -/

theorem exec_chklen_of_registered (hr : s.config.eccMethod.registered = true)
    (hv : s.config.eccMethod.value = kindCode kind) : exec .chklen s = .next
      { s with responses := s.responses ++ [okWord false 0 (BitVec.ofNat 32 (trailerWidth kind))] } := by
  rw [exec, execChklen, withKind_of_registered _ hr hv, answer_eq_next, respond_withData]

/-- Settles O48, number by number of 10_state.md R15. -/
theorem chklenAnswersTheTrailerWidth : Obligations.ChklenAnswersTheTrailerWidth := by
  refine fun s => ⟨fun hr => ?unregistered, fun hr k hk hv => ?registered⟩
  case unregistered => rw [exec, execChklen, withKind_of_unregistered _ hr, respond_failed]
  case registered =>
    match k, hk with
    | 0, _ => exact exec_chklen_of_registered (kind := .crc8) hr hv
    | 1, _ => exact exec_chklen_of_registered (kind := .crc16) hr hv
    | 2, _ => exact exec_chklen_of_registered (kind := .crc32) hr hv
    | 3, _ => exact exec_chklen_of_registered (kind := .checksum8) hr hv
    | 4, _ => exact exec_chklen_of_registered (kind := .checksum16) hr hv
    | 5, _ => exact exec_chklen_of_registered (kind := .checksum32) hr hv

/-! ## What ADDCORR and CHKCORR answer -/

section commands
variable (hc : s.ctxs[m]? = some c)
include hc

theorem exec_addcorr_of_unregistered (hr : s.config.eccMethod.registered = false) :
    exec (.addcorr m) s = .next { s with responses := s.responses ++ [failWord .registration 0] } := by
  rw [exec, execAddcorr, withCtx_of_some hc, withKind_of_unregistered _ hr, respond_failed]

theorem exec_chkcorr_of_unregistered (hr : s.config.eccMethod.registered = false) :
    exec (.chkcorr m) s = .next { s with responses := s.responses ++ [failWord .registration 0] } := by
  rw [exec, execChkcorr, withCtx_of_some hc, withKind_of_unregistered _ hr, respond_failed]

variable (hr : s.config.eccMethod.registered = true) (hv : s.config.eccMethod.value = kindCode kind)
include hr hv

theorem exec_addcorr_of_full (hfull : s.params.capBits < c.bitCount + trailerWidth kind) :
    exec (.addcorr m) s = .next { s with responses := s.responses ++ [failWord .capacity 0] } := by
  simp only [exec, execAddcorr, withCtx_of_some hc, withKind_of_registered _ hr hv, addTrailer_eq_none.2 hfull,
    failWith_eq_next, respond_failed]

theorem exec_addcorr_of_room (hd : addTrailer s.params kind c = some d) : exec (.addcorr m) s = .next
    { s with ctxs := s.ctxs.set m d, responses := s.responses ++ [okWord false 0 0] } := by
  simp only [exec, execAddcorr, withCtx_of_some hc, withKind_of_registered _ hr hv, hd, answer_eq_next, respond_done,
    State.setCtx]

theorem exec_chkcorr_of_bounds (h : c.finalLength < trailerWidth kind ∨ c.bitCount < c.finalLength) :
    exec (.chkcorr m) s = .next { s with responses := s.responses ++ [failWord .bounds 0] } := by
  rw [exec, execChkcorr, withCtx_of_some hc, withKind_of_registered _ hr hv, if_pos h, failWith_eq_next, respond_failed]

/-- With room for a trailer below a cursor within the buffer, CHKCORR reports the flag of its context. -/
theorem exec_chkcorr_of_room (hroom : trailerWidth kind ≤ c.finalLength) (hlen : c.finalLength ≤ c.bitCount)
    (hcap : c.bitCount ≤ s.params.capBits) : exec (.chkcorr m) s = .next
      { s with responses := s.responses ++ [okWord (checkFlag s.params kind c) 0 0] } := by
  rw [exec, execChkcorr, withCtx_of_some hc, withKind_of_registered _ hr hv, if_neg (by omega), if_neg (by omega)]
  rfl

end commands

/-- Settles O46: the trailer is written at the cursor, so the bits it is the code of stay. -/
theorem addcorrAppendsTheCode : Obligations.AddcorrAppendsTheCode := by
  intro s m c hs hc
  obtain ⟨-, -, hmem, -⟩ := ctx_wf_of_inv hs hc
  refine ⟨exec_addcorr_of_unregistered hc, fun kind hr hv => ⟨exec_addcorr_of_full hc hr hv, fun hroom => ?_⟩⟩
  exact ⟨_, exec_addcorr_of_room hc hr hv (addTrailer_eq_some.2 ⟨hroom, rfl⟩),
    memRead_memWrite_same hmem (code_lt _ _ _ _), fun q hq => bitRead_putBits_outside hmem (by rwa [bitsOf_length])⟩

/-- The polarity of each kind (R131): equal for CRC-8 and CRC-32, unequal for the others. -/
theorem mismatchFlag_eq (kind : Kind) (computed received : Nat) : mismatchFlag kind computed received =
    if kind = .crc8 ∨ kind = .crc32 then decide (computed = received) else !decide (computed = received) := by
  cases kind <;> rfl

/-- Settles O47. -/
theorem chkcorrReportsWithItsPolarity : Obligations.ChkcorrReportsWithItsPolarity := by
  refine fun s m c hc => ⟨exec_chkcorr_of_unregistered hc, fun kind hr hv =>
    ⟨exec_chkcorr_of_bounds hc hr hv, fun hroom hlen hcap => ?_⟩⟩
  rw [exec_chkcorr_of_room hc hr hv hroom hlen hcap, checkFlag, mismatchFlag_eq]

/-! ## Runs of commands -/

theorem execAll_cons {i : Instr} {is : List Instr} (h : exec i s = .next t) :
    execAll (i :: is) s = execAll is t := by rw [execAll, h]

/-- A run that answers a next state begins with a command that does. -/
theorem execAll_cons_next {i : Instr} {is : List Instr} (h : execAll (i :: is) s = .next t) :
    ∃ v, exec i s = .next v ∧ execAll is v = .next t := by
  rw [execAll] at h
  split at h
  · next v hi => exact ⟨v, hi, h⟩
  · cases h
  · cases h

/-- A run of two parts is the one run after the other. -/
theorem execAll_append {is : List Instr} (js : List Instr) (h : execAll is s = .next t) :
    execAll (is ++ js) s = execAll js t := by
  induction is generalizing s with
  | nil => cases h; rfl
  | cons i is ih =>
    obtain ⟨v, hi, hrest⟩ := execAll_cons_next h
    exact (execAll_cons hi).trans (ih hrest)

/-- Commands that name a context leave the parameters and the configuration. -/
theorem execAll_keeps_config {is : List Instr} (hnamed : ∀ i ∈ is, ∃ m, handleOf i = some m)
    (h : execAll is s = .next t) : t.params = s.params ∧ t.config = s.config := by
  induction is generalizing s with
  | nil => cases h; exact ⟨rfl, rfl⟩
  | cons i is ih =>
    obtain ⟨⟨m, hm⟩, hnamed⟩ := List.forall_mem_cons.1 hnamed
    obtain ⟨v, hi, hrest⟩ := execAll_cons_next h
    obtain ⟨w, r, he, rfl⟩ := exec_answers hi
    obtain ⟨hparams, hconfig⟩ := ih hnamed hrest
    obtain ⟨hkeep, -⟩ := he.config_app_of_named hm
    exact ⟨hparams.trans he.params_eq, hconfig.trans hkeep⟩

/-! ## The loop-back -/

/-- A fresh context with a run of bits appended. -/
def filledCtx (bits : List Bool) : Ctx := { resetCtx with buf := putBits [] 0 bits, bitCount := bits.length }

theorem append_resetCtx {capBits : Nat} {bits : List Bool} (hroom : bits.length ≤ capBits) :
    resetCtx.append capBits bits = some (filledCtx bits) :=
  Ctx.append_eq_some.2 (by rw [show resetCtx.bitCount = 0 from rfl, Nat.zero_add]; exact ⟨hroom, rfl⟩)

/-- The context that has received a run of bits and is sealed. -/
def receivedCtx (bits : List Bool) : Ctx :=
  { filledCtx bits with preambleReceived := true, finalLength := bits.length, fullyReceived := true }

theorem receivedCtx_finalLength (bits : List Bool) : (receivedCtx bits).finalLength = bits.length := rfl

theorem receivedCtx_bitCount (bits : List Bool) : (receivedCtx bits).bitCount = bits.length := rfl

/-- Below its length the received buffer holds the bits received. -/
theorem bitRead_receivedCtx {bits : List Bool} {q : Nat} (hq : q < bits.length) :
    bitRead (receivedCtx bits).buf q = bits.getD q false := by
  rw [receivedCtx, filledCtx, bitRead_putBits _ wf_nil, if_pos (by omega), Nat.sub_zero]

/-- RXPRE and RXSEAL record the length and set both flags. -/
theorem execAll_seal (hc : s.ctxs[m]? = some c) : ∃ t, execAll [.rxpre m, .rxseal m] s = .next t ∧ t.ctxs[m]? = some
    { c with preambleReceived := true, finalLength := c.bitCount, fullyReceived := true } := by
  have hpre := getElem?_setCtx_same hc { c with preambleReceived := true }
  have hrun := (execAll_cons (rxpreSetsThePreambleFlag s m c hc)).trans
    (execAll_cons (is := []) (rxsealRecordsTheLength _ m _ hpre))
  exact ⟨_, hrun, getElem?_setCtx_same hpre _⟩

/-- The commands that receive a run of bits: the context is reset, takes one ADDBIT for each bit and is sealed
(42_frame_ops.md R110). -/
def reception (m : Nat) (bits : List Bool) : List Instr :=
  [Instr.preprx m] ++ bits.map (Instr.addbit m) ++ [Instr.rxpre m, Instr.rxseal m]

theorem handleOf_of_mem_reception {bits : List Bool} {i : Instr} (h : i ∈ reception m bits) :
    handleOf i = some m := by
  simp only [reception, List.mem_append, List.mem_map, List.mem_cons, List.not_mem_nil, or_false] at h
  obtain (rfl | ⟨b, -, rfl⟩) | rfl | rfl := h <;> rfl

/-- A reception that fits leaves the context with the bits received. -/
theorem execAll_reception (hm : m < s.nMsg) {bits : List Bool} (hroom : bits.length ≤ s.params.capBits) :
    ∃ t, execAll (reception m bits) s = .next t ∧ t.ctxs[m]? = some (receivedCtx bits) := by
  obtain ⟨c, hc⟩ := exists_ctx hm
  have hreset : execAll [.preprx m] s = .next ((s.setCtx m resetCtx).respond .done) :=
    execAll_cons (withCtx_of_some hc)
  have hfresh : ((s.setCtx m resetCtx).respond .done).ctxs[m]? = some resetCtx := getElem?_setCtx_same hc _
  obtain ⟨u, hbits, hu⟩ := execAll_addbits_of_append hfresh (append_resetCtx hroom)
  have hfilled : u.ctxs[m]? = some (filledCtx bits) := by rw [hu]; exact getElem?_setCtx_same hfresh _
  obtain ⟨t, hseal, ht⟩ := execAll_seal hfilled
  refine ⟨t, ?_, ht⟩
  rw [reception, List.append_assoc, execAll_append _ hreset, execAll_append _ hbits, hseal]

/-- The flag reads the final length and the bits below it. -/
theorem checkFlag_congr {p : Params} (hlen : c.finalLength = d.finalLength)
    (hroom : trailerWidth kind ≤ d.finalLength)
    (h : ∀ q, q < d.finalLength → bitRead c.buf q = bitRead d.buf q) : checkFlag p kind c = checkFlag p kind d := by
  rw [checkFlag, checkFlag, hlen, code_congr kind _ fun q hq => h q (by omega),
    memRead_congr fun q _ hq => h q (by omega)]

/-- A frame whose trailer is the code of the bits before it is reported as a match (R131). -/
theorem checkFlag_of_match {p : Params}
    (h : memRead c.buf (c.finalLength - trailerWidth kind) (trailerWidth kind)
      = code kind p.crcTailShifts c.buf (c.finalLength - trailerWidth kind)) :
    checkFlag p kind c = decide (kind = .crc8 ∨ kind = .crc32) := by
  rw [checkFlag, mismatchFlag_eq, h, decide_eq_true rfl]
  split <;> simp [*]

/-- The bits of a frame: those of the buffer below `final_length`. -/
def frameBits (c : Ctx) : List Bool := (List.range c.finalLength).map (bitRead c.buf)

theorem frameBits_length (c : Ctx) : (frameBits c).length = c.finalLength := by
  rw [frameBits, List.length_map, List.length_range]

theorem frameBits_getD {q : Nat} (hq : q < c.finalLength) : (frameBits c).getD q false = bitRead c.buf q := by
  simp [frameBits, List.getD, hq]

/-- A frame received bit by bit in a context and checked is reported as it would be where it stands (R134). -/
theorem execAll_reception_check (hm : m < s.nMsg) (hr : s.config.eccMethod.registered = true)
    (hv : s.config.eccMethod.value = kindCode kind) (c : Ctx) (hroom : trailerWidth kind ≤ c.finalLength)
    (hcap : c.finalLength ≤ s.params.capBits) : ∃ u,
      execAll (reception m (frameBits c) ++ [Instr.chkcorr m]) s = .next u
      ∧ u.responses.getLast? = some (okWord (checkFlag s.params kind c) 0 0) := by
  have hlen := frameBits_length c
  obtain ⟨t, hrun, ht⟩ := execAll_reception hm (bits := frameBits c) (by rwa [hlen])
  obtain ⟨hparams, hconfig⟩ := execAll_keeps_config (fun _ hi => ⟨m, handleOf_of_mem_reception hi⟩) hrun
  have hcheck := exec_chkcorr_of_room ht (hconfig ▸ hr) (hconfig ▸ hv)
    (by rwa [receivedCtx_finalLength, hlen]) (Nat.le_refl _) (by rwa [receivedCtx_bitCount, hlen, hparams])
  have hflag : checkFlag t.params kind (receivedCtx (frameBits c)) = checkFlag s.params kind c := by
    rw [hparams]
    exact checkFlag_congr hlen hroom fun q hq => by rw [bitRead_receivedCtx (by rwa [hlen]), frameBits_getD hq]
  rw [execAll_append _ hrun, execAll_cons hcheck, hflag]
  exact ⟨_, rfl, List.getLast?_concat⟩

/-- The run of R134 is a reception and a check. -/
theorem loopBack_eq_reception (m : Nat) (c : Ctx) :
    [Instr.preprx m] ++ ((List.range c.finalLength).map fun q => Instr.addbit m (bitRead c.buf q))
      ++ [Instr.rxpre m, Instr.rxseal m, Instr.chkcorr m]
      = reception m (frameBits c) ++ [Instr.chkcorr m] := by
  rw [reception, frameBits, List.map_map, List.append_assoc _ _ [Instr.chkcorr m]]; rfl

/-- Settles O49: the frame's trailer is the code of the bits before it (O37), and its reception is checked as the frame
would be. -/
theorem loopBackReportsAMatch : Obligations.LoopBackReportsAMatch := by
  intro s m m' kind hs hm hm' _ hid hst hr hv hne hroom
  obtain ⟨buf, hbuilt, -, -, htrailer, -⟩ := preptxBuildsTheFrame s m kind hs hm hid hst hr hv hne hroom
  obtain ⟨t, c, hexec, hctxs, hparams, hconfig, hlen, rfl⟩ : ∃ (t : State) (c : Ctx), exec (.preptx m) s = .next t
      ∧ t.ctxs = s.ctxs.set m c ∧ t.params = s.params ∧ t.config = s.config
      ∧ c.finalLength = s.params.preamble.length + s.app.lengthBits + trailerWidth kind ∧ c.buf = buf :=
    ⟨_, _, hbuilt, rfl, rfl, rfl, rfl, rfl⟩
  have hm' : m' < t.nMsg := by rwa [State.nMsg, hctxs, List.length_set]
  have hflag : checkFlag t.params kind c = decide (kind = .crc8 ∨ kind = .crc32) :=
    checkFlag_of_match (by rw [hlen, Nat.add_sub_cancel, hparams]; exact htrailer)
  obtain ⟨u, hrun, hlast⟩ := execAll_reception_check hm' (hconfig ▸ hr) (hconfig ▸ hv) c
    (hlen ▸ Nat.le_add_left _ _) (by rwa [hlen, hparams])
  exact ⟨t, u, c, hexec, hctxs ▸ List.getElem?_set_self hm, loopBack_eq_reception m' c ▸ hrun, hflag ▸ hlast⟩

end Sys2Proof.Machine
end

section
/-! The configuration commands (44_config_ops.md). SETCFG and GETCFG turn on which register a number selects,
`registeredId`; what each then answers is a whole next state. A write within the limits loses nothing to the register's
byte, and the value held is the same number as a word and as a byte. -/

namespace Sys2Proof.Machine

variable {s : State} {i : Nat} {id : CfgId} {v : BitVec 32}

/-! ## Which register a number selects -/

/-- The table of R14 is the model's. -/
theorem cfgIdOf_of_mem (h : (i, id) ∈ [(0, CfgId.eccMethod), (1, .modemId), (2, .stationary)]) :
    cfgIdOf i = some id := by
  simp only [List.mem_cons, Prod.mk.injEq, List.not_mem_nil, or_false] at h
  obtain ⟨rfl, rfl⟩ | ⟨rfl, rfl⟩ | ⟨rfl, rfl⟩ := h <;> rfl

theorem registeredId_of_large (s : State) (h : 3 ≤ i) : registeredId s i = none := by
  rw [registeredId, cfgIdOf_eq_none h]

theorem registeredId_of_unregistered (hid : cfgIdOf i = some id) (hr : (s.cfg id).registered = false) :
    registeredId s i = none := by
  simp [registeredId, hid, hr]

/-! ## Limits -/

theorem withinLimits_iff {p : Params} :
    withinLimits p id v = true ↔ cfgMin p id ≤ v.toNat ∧ v.toNat ≤ cfgMax p id := by
  simp [withinLimits]

theorem withinLimits_eq_false_iff {p : Params} :
    withinLimits p id v = false ↔ v.toNat < cfgMin p id ∨ cfgMax p id < v.toNat := by
  rw [← Bool.not_eq_true, withinLimits_iff, not_and_or, not_le, not_le]

/-- A value within the limits fits the register's byte. -/
theorem toNat_setWidth_of_withinLimits {p : Params} (h : withinLimits p id v = true) :
    (v.setWidth 8).toNat = v.toNat := by
  have ⟨_, hmax⟩ := withinLimits_iff.1 h
  have hle := cfgMax_le p id
  rw [BitVec.toNat_setWidth, Nat.mod_eq_of_lt (by omega)]

/-- The comparison of a word with the value held, as unsigned numbers (R152). -/
theorem eq_setWidth_iff {b : Byte} : v = b.setWidth 32 ↔ v.toNat = b.toNat := by
  rw [← BitVec.toNat_inj, BitVec.toNat_setWidth_of_le (by decide)]

/-! ## PKTREG and ECCREG -/

/-- Settles O50: under the invariant STATIONARY's bit is MODEM_ID's, so both checks of the rule agree. -/
theorem pktregRegistersOnce : Obligations.PktregRegistersOnce := by
  intro s hs
  obtain ⟨-, -, -, -, hconfig⟩ := hs
  obtain ⟨-, htogether⟩ := config_wf_iff.1 hconfig
  rw [exec, execPktreg, ← htogether, Bool.or_self]
  refine ⟨fun (hr : (s.cfg .modemId).registered = false) => ?unregistered,
    fun (hr : (s.cfg .modemId).registered = true) => ?registered⟩
  case unregistered => rw [if_neg (ne_true_of_eq_false hr), answer_eq_next, respond_done]; rfl
  case registered => rw [if_pos hr, failWith_eq_next, respond_failed]

/-- Settles O51: the two sides of the check. -/
theorem eccregRegistersOnce : Obligations.EccregRegistersOnce := by
  intro s
  rw [exec, execEccreg]
  refine ⟨fun (hr : (s.cfg .eccMethod).registered = false) => ?unregistered,
    fun (hr : (s.cfg .eccMethod).registered = true) => ?registered⟩
  case unregistered => rw [if_neg (ne_true_of_eq_false hr), answer_eq_next, respond_done]; rfl
  case registered => rw [if_pos hr, failWith_eq_next, respond_failed]

/-! ## SETCFG -/

theorem exec_setcfg_of_none (v : BitVec 32) (h : registeredId s i = none) :
    exec (.setcfg i v) s = .next { s with responses := s.responses ++ [failWord .registration 0] } := by
  simp only [exec, execSetcfg, h, failWith_eq_next, respond_failed]

section selected
variable (h : registeredId s i = some id)
include h

theorem exec_setcfg_of_outside (hv : withinLimits s.params id v = false) :
    exec (.setcfg i v) s = .next { s with responses := s.responses ++ [failWord .validation 0] } := by
  simp only [exec, execSetcfg, h, hv, Bool.not_false, if_true, failWith_eq_next, respond_failed]

variable (hv : withinLimits s.params id v = true)
include hv

/-- The value held: a success that writes nothing, not even the modified flag. -/
theorem exec_setcfg_of_held (heq : v = (s.cfg id).value.setWidth 32) :
    exec (.setcfg i v) s = .next { s with responses := s.responses ++ [okWord false 0 0] } := by
  simp only [exec, execSetcfg, h, hv, Bool.not_true, Bool.false_eq_true, if_false, if_pos heq, answer_eq_next,
    respond_done]

theorem exec_setcfg_of_new (hne : v ≠ (s.cfg id).value.setWidth 32) :
    exec (.setcfg i v) s = .next
      ((s.setCfg id { s.cfg id with value := v.setWidth 8, modified := true }).respond .done) := by
  simp only [exec, execSetcfg, h, hv, Bool.not_true, Bool.false_eq_true, if_false, if_neg hne, answer_eq_next]

end selected

/-- Settles O52: the checks in the order of the rule; a new value is the register set, read back. -/
theorem setcfgChecksThenWrites : Obligations.SetcfgChecksThenWrites := by
  intro s v _
  refine ⟨fun i hi => exec_setcfg_of_none v (registeredId_of_large s hi), fun i id hmem => ?_⟩
  have hid := cfgIdOf_of_mem hmem
  intro r low high
  have hlow : low = cfgMin s.params id := by cases id <;> rfl
  have hhigh : high = cfgMax s.params id := by cases id <;> rfl
  rw [hlow, hhigh]
  refine ⟨fun hr => ?unregistered, fun hr hout => ?outside, fun hr hmin hmax heq => ?held,
    fun hr hmin hmax hne => ?new⟩
  case unregistered => exact exec_setcfg_of_none v (registeredId_of_unregistered hid hr)
  all_goals have hsel := registeredId_eq_some.2 ⟨hid, hr⟩
  case outside => exact exec_setcfg_of_outside hsel (withinLimits_eq_false_iff.2 hout)
  all_goals have hv := withinLimits_iff.2 ⟨hmin, hmax⟩
  case held => exact exec_setcfg_of_held hsel hv (eq_setWidth_iff.2 heq)
  case new =>
    have hread := State.cfg_setCfg s { s.cfg id with value := v.setWidth 8, modified := true } id
    have hself := (hread id).trans (if_pos rfl)
    refine ⟨_, exec_setcfg_of_new hsel hv (mt eq_setWidth_iff.1 hne), fun id' hid' => ?others, ?value, ?registered,
      ?modified⟩
    case others => exact (hread id').trans (if_neg hid')
    case value => exact (congrArg (·.value.toNat) hself).trans (toNat_setWidth_of_withinLimits hv)
    case registered => exact (congrArg (·.registered) hself).trans hr
    case modified => exact congrArg (·.modified) hself

/-! ## GETCFG -/

theorem exec_getcfg_of_none (h : registeredId s i = none) :
    exec (.getcfg i) s = .next { s with responses := s.responses ++ [failWord .registration 0] } := by
  simp only [exec, execGetcfg, h, failWith_eq_next, respond_failed]

/-- The data is the register's byte, zero-extended. -/
theorem exec_getcfg_of_some (h : registeredId s i = some id) : exec (.getcfg i) s = .next
    { s with responses := s.responses ++ [okWord false 0 ((s.cfg id).value.setWidth 32)] } := by
  simp only [exec, execGetcfg, h, answer_eq_next, respond_withData, BitVec.ofNat_toNat]

/-- Settles O53: the two answers of the register selection. -/
theorem getcfgReadsARegisteredRegister : Obligations.GetcfgReadsARegisteredRegister := by
  refine fun s => ⟨fun i hi => exec_getcfg_of_none (registeredId_of_large s hi), fun i id hmem => ?_⟩
  have hid := cfgIdOf_of_mem hmem
  exact ⟨fun hr => exec_getcfg_of_none (registeredId_of_unregistered hid hr),
    fun hr => exec_getcfg_of_some (registeredId_eq_some.2 ⟨hid, hr⟩)⟩

end Sys2Proof.Machine
end

section
/-! Failure and progress (60_exceptions.md). A failed command other than PREPTX answers the state it was given with one more
response, and nothing stops the block: its two faults stand only where the invariant of 10_state.md is broken. Each shared
operation has one rule for either fact. -/

namespace Sys2Proof.Machine

variable {i : Instr} {s t u : State} {m sel : Nat} {w : Word} {rest : List Word} {c : Ctx} {cause : Cause}

/-! ## ILLEGAL (R166) -/

/-- A step with a command offered takes its word off the port and runs it (10_state.md R12). -/
theorem step_of_cons (hs : s.commands = w :: rest) : step s = runWord w { s with commands := rest } := by
  have htake : s.takeCommand = { s with commands := rest } := by rw [State.takeCommand, hs, List.tail_cons]
  simp only [step, stepPort, hs, htake]

/-- A word whose opcode is none of the 24 is answered ILLEGAL (30_encoding.md R64). -/
theorem runWord_of_undefined (hop : opcodeField w ∉ opcodeMasks.map Prod.fst) (s : State) :
    runWord w s = .next (s.respond (.failed .illegal)) := by
  unfold runWord
  split
  · next i hi => exact absurd (exists_decode_iff.1 ⟨i, hi⟩) hop
  · rfl

/-- Every command that names a context looks it up before anything else (R169). -/
theorem exec_of_bad_handle (hi : handleOf i = some m) (hm : s.nMsg ≤ m) :
    exec i s = .next (s.respond (.failed .illegal)) := by
  have hnone : s.ctxs[m]? = none := ctxs_none_iff.2 hm
  cases i with
  | minsize | appwr | apphdr | chklen | pktreg | eccreg | setcfg | getcfg => cases hi
  | addbit | add8 | add16 | add32 | getbit | getchunk | get8 | get16 | get32 | preptx | preprx | rxpre | rxseal | rdctx
  | addcorr | chkcorr => cases hi; exact withCtx_of_none hnone

/-- A selector above 5 names no field, so RDCTX fails whether or not its handle is good (42_frame_ops.md R107). -/
theorem exec_rdctx_of_bad_selector (hsel : 5 < sel) :
    exec (.rdctx m sel) s = .next { s with responses := s.responses ++ [failWord .illegal 0] } := by
  cases hc : s.ctxs[m]? with
  | none => rw [exec_of_bad_handle (m := m) rfl (ctxs_none_iff.1 hc), respond_failed]
  | some c => exact exec_rdctx_of_none hc (ctxField_eq_none c hsel)

/-- Settles O7. -/
theorem illegalEncodingsFail : Obligations.IllegalEncodingsFail := by
  refine ⟨fun s w rest hs hop => ?opcode, fun s i m hi hm => ?handle, fun s m sel => exec_rdctx_of_bad_selector⟩
  case opcode => rw [step_of_cons hs, runWord_of_undefined hop, respond_failed]
  case handle => rw [exec_of_bad_handle hi hm, respond_failed]

/-! ## Progress (R160) -/

/-- The outcome is a next state: neither a fault nor a refusal. -/
def Progresses (o : Host.Outcome State Fault Refusal) : Prop := ∃ t, o = .next t

theorem progresses_answer (s : State) (r : Response) : Progresses (answer s r) := ⟨_, rfl⟩

theorem progresses_failWith (s : State) (cause : Cause) : Progresses (failWith s cause) := ⟨_, rfl⟩

theorem withCtx_progresses {f : Ctx → Host.Outcome State Fault Refusal}
    (hf : ∀ c, s.ctxs[m]? = some c → Progresses (f c)) : Progresses (withCtx m s f) := by
  unfold withCtx
  split
  · exact progresses_failWith ..
  · next c hc => exact hf c hc

/-- The value of `ECC_METHOD` is legal, so it selects a kind (10_state.md R14). -/
theorem exists_kind_of_inv (hs : s.inv) : ∃ kind, kindOf s.config.eccMethod.value = some kind := by
  obtain ⟨-, -, -, -, ⟨-, hmax⟩, -⟩ := hs
  exact kindOf_of_legal hmax

theorem withKind_progresses {k : Kind → Host.Outcome State Fault Refusal} (hs : s.inv)
    (hk : ∀ kind, Progresses (k kind)) : Progresses (withKind s k) := by
  obtain ⟨kind, hkind⟩ := exists_kind_of_inv hs
  unfold withKind
  split
  · simpa only [hkind] using hk kind
  · exact progresses_failWith ..

/-- An admitted span lies below `bit_count`, which is at most the capacity (10_state.md R27). -/
theorem extract_progresses (hc : c.bitCount ≤ s.params.capBits) (pos n : Nat) (k : Nat → Response) :
    Progresses (extract c s pos n k) := by
  obtain ⟨hin, -⟩ | ⟨hcount, hcap, -⟩ | ⟨hcount, hcap, -⟩ := extractBound_cases s.params.capBits c.bitCount pos n
  · exact ⟨_, extract_ok k hin hc⟩
  · exact ⟨_, extract_of_capacity k hcount hcap⟩
  · exact ⟨_, extract_of_bounds k hcount hcap⟩

theorem bitCount_le_of_inv (hs : s.inv) (hc : s.ctxs[m]? = some c) : c.bitCount ≤ s.params.capBits := by
  obtain ⟨-, hcap, -⟩ := ctx_wf_of_inv hs hc
  exact hcap

/-- The one way to get stuck is an `ECC_METHOD` that selects no kind (log entry 8). -/
theorem buildFrame_ne_stuck (hs : s.inv) : buildFrame s ≠ .stuck := by
  intro hstuck
  obtain ⟨kind, hkind⟩ := exists_kind_of_inv hs
  rcases buildFrame_cases s with
    ⟨-, hb⟩ | ⟨d, -, ⟨-, hb⟩ | ⟨-, -, hb⟩ | ⟨-, -, hnone, hb⟩ | ⟨_, -, -, -, ⟨-, hb⟩ | ⟨e, -, hb⟩⟩⟩
  all_goals rw [hb] at hstuck; cases hstuck
  rw [hkind] at hnone
  cases hnone

theorem appendCommand_progresses (m : Nat) (bs : List Bool) (s : State) : Progresses (appendCommand m bs s) :=
  withCtx_progresses fun c _ => by
    split
    · exact progresses_failWith ..
    · exact progresses_answer ..

theorem execGetchunk_progresses (hs : s.inv) (m pos len : Nat) : Progresses (execGetchunk m pos len s) :=
  withCtx_progresses fun c hc => by
    split
    · exact progresses_answer ..
    · exact extract_progresses (bitCount_le_of_inv hs hc) ..

theorem execPreptx_progresses (hs : s.inv) (m : Nat) : Progresses (execPreptx m s) :=
  withCtx_progresses fun _ _ => by
    split
    · split
      · exact progresses_answer ..
      · exact progresses_failWith ..
      · next hb => exact absurd hb (buildFrame_ne_stuck hs)
    · exact progresses_failWith ..

theorem execRdctx_progresses (m sel : Nat) (s : State) : Progresses (execRdctx m sel s) :=
  withCtx_progresses fun c _ => by
    split
    · exact progresses_failWith ..
    · exact progresses_answer ..

theorem execAddcorr_progresses (hs : s.inv) (m : Nat) : Progresses (execAddcorr m s) :=
  withCtx_progresses fun c _ => withKind_progresses hs fun kind => by
    split
    · exact progresses_failWith ..
    · exact progresses_answer ..

/-- The trailer checked ends at `final_length`, which is at most `bit_count` and so within the buffer. -/
theorem execChkcorr_progresses (hs : s.inv) (m : Nat) : Progresses (execChkcorr m s) :=
  withCtx_progresses fun c hc => withKind_progresses hs fun kind => by
    obtain ⟨hlen, hcap, -⟩ := ctx_wf_of_inv hs hc
    split
    · exact progresses_failWith ..
    · rw [if_neg (by omega)]
      exact progresses_answer ..

theorem execSetcfg_progresses (j : Nat) (v : BitVec 32) (s : State) : Progresses (execSetcfg j v s) := by
  unfold execSetcfg
  split
  · exact progresses_failWith ..
  · split
    · exact progresses_failWith ..
    · split <;> exact progresses_answer ..

/-- Within the invariant every command answers a next state. -/
theorem exec_progresses (hs : s.inv) (i : Instr) : Progresses (exec i s) := by
  cases i with
  | addbit | add8 | add16 | add32 => exact appendCommand_progresses ..
  | getbit | get8 | get16 | get32 =>
    exact withCtx_progresses fun c hc => extract_progresses (bitCount_le_of_inv hs hc) ..
  | getchunk => exact execGetchunk_progresses hs ..
  | preptx => exact execPreptx_progresses hs _
  | preprx | rxpre | rxseal => exact withCtx_progresses fun c _ => progresses_answer ..
  | minsize => exact progresses_answer ..
  | rdctx => exact execRdctx_progresses ..
  | addcorr => exact execAddcorr_progresses hs _
  | chkcorr => exact execChkcorr_progresses hs _
  | chklen => exact withKind_progresses hs fun kind => progresses_answer ..
  | setcfg => exact execSetcfg_progresses ..
  | appwr | apphdr | pktreg | eccreg | getcfg =>
    simp only [exec, execAppwr, execApphdr, execPktreg, execEccreg, execGetcfg]
    split
    · exact progresses_failWith ..
    · exact progresses_answer ..

theorem runWord_progresses (hs : s.inv) (w : Word) : Progresses (runWord w s) := by
  unfold runWord
  split
  · exact exec_progresses hs _
  · exact progresses_failWith ..

/-- Settles O13: taking a word off the port leaves everything that the invariant speaks of. -/
theorem noStepStopsTheMachine : Obligations.NoStepStopsTheMachine := by
  intro s hs
  unfold step stepPort
  split
  · exact ⟨s, rfl⟩
  · exact runWord_progresses (s := s.takeCommand) hs _

/-! ## What a failed command leaves (R170) -/

/-- `t` is `s` with one more response, or the end of a command that succeeded. -/
def UnchangedOrDone (s t : State) : Prop := OnlyResponds s t ∨ ∃ u : State, t = u.respond .done

theorem UnchangedOrDone.of_failWith (h : failWith s cause = .next t) : UnchangedOrDone s t := .inl (.of_answer h)

theorem UnchangedOrDone.of_done (h : answer u .done = .next t) : UnchangedOrDone s t :=
  .inr ⟨u, by simpa using h.symm⟩

theorem withCtx_unchangedOrDone {f : Ctx → Host.Outcome State Fault Refusal} (h : withCtx m s f = .next t)
    (hf : ∀ c, f c = .next t → UnchangedOrDone s t) : UnchangedOrDone s t := by
  obtain ⟨-, rfl⟩ | ⟨c, -, ht⟩ := withCtx_next h
  · exact .of_failWith rfl
  · exact hf c ht

theorem withKind_unchangedOrDone {k : Kind → Host.Outcome State Fault Refusal} (h : withKind s k = .next t)
    (hk : ∀ kind, k kind = .next t → UnchangedOrDone s t) : UnchangedOrDone s t := by
  obtain ⟨-, rfl⟩ | ⟨kind, -, -, ht⟩ := withKind_next h
  · exact .of_failWith rfl
  · exact hk kind ht

theorem appendCommand_unchangedOrDone {bs : List Bool} (h : appendCommand m bs s = .next t) : UnchangedOrDone s t :=
  withCtx_unchangedOrDone h fun c h => by
    split at h
    · exact .of_failWith h
    · exact .of_done h

theorem execAddcorr_unchangedOrDone (h : execAddcorr m s = .next t) : UnchangedOrDone s t :=
  withCtx_unchangedOrDone h fun c h => withKind_unchangedOrDone h fun kind h => by
    split at h
    · exact .of_failWith h
    · exact .of_done h

theorem execSetcfg_unchangedOrDone {j : Nat} {v : BitVec 32} (h : execSetcfg j v s = .next t) :
    UnchangedOrDone s t := by
  unfold execSetcfg at h
  split at h
  · exact .of_failWith h
  · split at h
    · exact .of_failWith h
    · split at h <;> exact .of_done h

/-- A command other than PREPTX changes state only where it ends in a plain success. -/
theorem exec_unchangedOrDone (hi : ∀ m, i ≠ .preptx m) (h : exec i s = .next t) : UnchangedOrDone s t := by
  cases i with
  | getbit | getchunk | get8 | get16 | get32 | minsize | rdctx | chkcorr | chklen | getcfg =>
    exact .inl (exec_onlyResponds rfl h)
  | addbit | add8 | add16 | add32 => exact appendCommand_unchangedOrDone h
  | preptx m => exact absurd rfl (hi m)
  | preprx | rxpre | rxseal => exact withCtx_unchangedOrDone h fun _ => .of_done
  | addcorr => exact execAddcorr_unchangedOrDone h
  | setcfg => exact execSetcfg_unchangedOrDone h
  | appwr | apphdr | pktreg | eccreg =>
    simp only [exec, execAppwr, execApphdr, execPktreg, execEccreg] at h
    split at h
    · exact .of_failWith h
    · exact .of_done h

/-- The response added last is the one that the list ends in. -/
theorem word_eq_of_respond {r : Response} {rs : List Word} (h : (u.respond r).responses = rs ++ [w]) : r.word = w :=
  (List.concat_inj.1 (by simpa using h)).2

/-- Settles O54: a plain success has bit 63 set, so a response without it is that of a command that changed nothing. -/
theorem failedCommandsChangeNothing : Obligations.FailedCommandsChangeNothing := by
  intro i s t w hi h hresp hfail
  obtain ⟨r, rfl⟩ | ⟨u, rfl⟩ := exec_unchangedOrDone hi h
  · obtain rfl := word_eq_of_respond hresp
    rfl
  · obtain rfl := word_eq_of_respond hresp
    obtain ⟨hok, -⟩ := responseWordLayout .done
    exact absurd (hok.symm.trans hfail) (by decide)

end Sys2Proof.Machine
end

section
/-! Runs of the block (70_reset_and_hazards.md). One step answers the next offered word and adds one response (R193), so what
a state owes to the first `k` words (`Answered`) is carried over a run by induction on `k`. -/

namespace Sys2Proof.Machine

variable {s t u : State} {w : Word} {k : Nat}

/-- One more step of a run is a step from where the run ended. -/
theorem run_succ_of_next {M : Host.Core} {x y : M.State} (h : M.run k x = .next y) : M.run (k + 1) x = M.step y := by
  induction k generalizing x with
  | zero =>
    cases h
    simp only [Host.Core.run]
    cases M.step y <;> rfl
  | succ k ih =>
    rw [Host.Core.run] at h ⊢
    split at h
    next z hz => rw [ih h]
    all_goals cases h

/-- A command word, of a defined opcode or not, is answered by one response, and the queue stays. -/
theorem runWord_answersOnce (h : runWord w s = .next t) :
    (∃ r : Word, t.responses = s.responses ++ [r]) ∧ t.commands = s.commands := by
  unfold runWord at h
  split at h
  · obtain ⟨hr, -, hcommands, -⟩ := everyCommandAnswersOnce _ _ _ h
    exact ⟨hr, hcommands⟩
  · cases h
    exact ⟨⟨_, rfl⟩, rfl⟩

/-- `u` is a state where the first `k` words offered in `s` are taken and each has added one response, the
earlier responses stand first, and the invariant holds (R193). -/
structure Answered (k : Nat) (s u : State) : Prop where
  commands : u.commands = s.commands.drop k
  length : u.responses.length = s.responses.length + k
  earlier : s.responses <+: u.responses
  inv : u.inv

theorem answered_zero (hs : s.inv) : Answered 0 s s := ⟨rfl, rfl, List.prefix_rfl, hs⟩

/-- Where there is a word number `k`, the next step is its run, which answers it. -/
theorem Answered.next (h : Answered k s u) (hw : s.commands[k]? = some w) :
    ∃ (t : State) (r : Word), runWord w { u with commands := s.commands.drop (k + 1) } = .next t ∧ step u = .next t
      ∧ t.responses = u.responses ++ [r] ∧ Answered (k + 1) s t := by
  have hu : State.inv { u with commands := s.commands.drop (k + 1) } := h.inv
  have hstep : step u = runWord w { u with commands := s.commands.drop (k + 1) } := by
    obtain ⟨hk, rfl⟩ := List.getElem?_eq_some_iff.1 hw
    exact step_of_cons (h.commands.trans (List.drop_eq_getElem_cons hk))
  obtain ⟨t, ht⟩ := runWord_progresses hu w
  obtain ⟨⟨r, hr⟩, hcommands⟩ := runWord_answersOnce ht
  refine ⟨t, r, ht, hstep.trans ht, hr, hcommands, ?_, ?_, runWord_inv hu ht⟩
  · rw [hr, List.length_append, h.length, List.length_singleton, Nat.add_assoc]
  · exact hr ▸ h.earlier.trans (List.prefix_append ..)

/-- A run of as many steps as there are words to take answers those words. -/
theorem run_answered (hs : s.inv) (hk : k ≤ s.commands.length) :
    ∃ u : State, Sys2Proof.core.run k s = .next u ∧ Answered k s u := by
  induction k with
  | zero => exact ⟨s, rfl, answered_zero hs⟩
  | succ k ih =>
    obtain ⟨u, hrun, hu⟩ := ih (Nat.le_of_succ_le hk)
    obtain ⟨t, -, -, hstep, -, ht⟩ := hu.next (List.getElem?_eq_getElem hk)
    exact ⟨t, (run_succ_of_next hrun).trans hstep, ht⟩

/-- Settles O14: `k` steps answer the first `k` words, and from there the next word is run. -/
theorem runsAnswerEveryCommand : Obligations.RunsAnswerEveryCommand := by
  intro s hs k hk
  obtain ⟨u, hrun, hu⟩ := run_answered hs hk
  refine ⟨u, hrun, hu.commands, hu.length, hu.earlier, hu.inv, fun w hw => ?_⟩
  obtain ⟨t, r, ht, hstep, hr, -⟩ := hu.next hw
  exact ⟨t, r, ht, (run_succ_of_next hrun).trans hstep, hr⟩

end Sys2Proof.Machine
end

section
/-! The minimum size (42_frame_ops.md R102). Each law of the size MINSIZE answers is the same law of the least power of two
at or above a number, taken at the larger of the argument and the smallest size. -/

namespace Sys2Proof.Machine

variable {m n : Nat}

theorem le_leastPower (n : Nat) : n ≤ leastPower n :=
  leastPower_eq n ▸ Nat.le_pow_clog one_lt_two n

theorem leastPower_mono (h : m ≤ n) : leastPower m ≤ leastPower n := by
  rw [leastPower_eq, leastPower_eq]
  exact Nat.pow_le_pow_right two_pos (Nat.clog_mono_right 2 h)

/-- A power of two is its own least power. -/
theorem leastPower_leastPower (n : Nat) : leastPower (leastPower n) = leastPower n := by
  rw [leastPower_eq n, leastPower_eq, Nat.clog_pow 2 _ one_lt_two]

/-- Above 1, half the least power is a power of two too, and so it is still below the number. -/
theorem leastPower_lt_two_mul (hn : 1 ≤ n) : leastPower n < 2 * n := by
  obtain rfl | hn := hn.eq_or_lt
  · decide
  · have hhalf : 2 ^ (Nat.clog 2 n - 1) < n := Nat.pow_pred_clog_lt_self one_lt_two hn
    calc leastPower n = 2 * 2 ^ (Nat.clog 2 n - 1) := by
          rw [leastPower_eq, mul_pow_sub_one (Nat.clog_pos one_lt_two hn).ne']
      _ < 2 * n := Nat.mul_lt_mul_of_pos_left hhalf two_pos

/-- Settles O31. The size is at least the smallest size, so that taking the size again leaves it as it is. -/
theorem minimumSizeLaws : Obligations.MinimumSizeLaws := by
  intro smallest hsmallest size
  have hmax (n : Nat) : max n smallest ≤ size n := le_leastPower _
  refine ⟨fun n => ⟨_, leastPower_eq _⟩, fun n => ⟨?least, ?bound⟩, fun n n' h => ?monotonic, fun n => ?idempotent⟩
  case least => exact (le_max_left ..).trans (hmax n)
  case bound => exact leastPower_lt_two_mul (hsmallest.trans (le_max_right ..))
  case monotonic => exact leastPower_mono (max_le_max_right smallest h)
  case idempotent =>
    calc size (size n) = leastPower (size n) := congrArg leastPower (max_eq_left ((le_max_right ..).trans (hmax n)))
      _ = size n := leastPower_leastPower _

end Sys2Proof.Machine
end
